-- ==== Sys2Proof/Word.lean ====
section
/-! DEFINITION. The words of the HBP: every quantity is an unsigned bit vector (R11, R130). -/

namespace Sys2Proof

/-- A host register, a command word, a host data word (R9 `REG_W`, R61). -/
abbrev Word := BitVec 32

/-- One byte of the output buffer (R38). -/
abbrev Byte := BitVec 8

/-- A symbol, "one byte value, domain 0–255" (R9 `SYM_W`, R14). -/
abbrev Sym := BitVec 8

/-- A code length as LEN and `CT[s].L` hold it, 0 to 255 (R34, R65). -/
abbrev Len := BitVec 8

/-- A bit sequence, written left to right in emission order (R11). -/
abbrev Bits := List Bool

end Sys2Proof
end

