-- ==== Sys2Proof/Syntax.lean ====
section
/-! DEFINITION. The eight commands (R63), one constructor per row of the opcode table. -/

namespace Sys2Proof

/-- A command word as decoded. EVERY constructor holds both operand fields of the one format (R61), used or
not: a field a command does not use has no effect, but a failing command records "the word as written" in
ERRCMD (R68), so the word must not be lost (log 10). An ignored field is named with a leading `i`. -/
inductive Instr where
  /-- NOP (R74). -/
  | nop (isym : Sym) (ilen : Len)
  /-- SRESET (R75). -/
  | sreset (isym : Sym) (ilen : Len)
  /-- CLEAR (R76). -/
  | clear (isym : Sym) (ilen : Len)
  /-- LOAD sym, len (R77). -/
  | load (sym : Sym) (len : Len)
  /-- READ sym (R78). -/
  | read (sym : Sym) (ilen : Len)
  /-- BEGIN (R80). -/
  | begin (isym : Sym) (ilen : Len)
  /-- ENC sym (R81). -/
  | enc (sym : Sym) (ilen : Len)
  /-- FINISH (R82). -/
  | finish (isym : Sym) (ilen : Len)
deriving DecidableEq, Repr

end Sys2Proof
end

