-- ==== Sys2Proof/Decode.lean ====
section
/-! DEFINITION. The command word: its fields (R61), the total decoder (R64), the encoder (R61, R63). -/

namespace Sys2Proof

/-- OP, bits 7:0 (R61). -/
def opField (w : Word) : BitVec 8 := w.extractLsb' 0 8

/-- SYM, bits 15:8 (R61, R65). -/
def symField (w : Word) : Sym := w.extractLsb' 8 8

/-- LEN, bits 23:16 (R61, R65). -/
def lenField (w : Word) : Len := w.extractLsb' 16 8

/-- RSV, bits 31:24, must be 0 (R61). -/
def rsvField (w : Word) : BitVec 8 := w.extractLsb' 24 8

/-- Why a word is illegal (R69). -/
inductive IllegalWord where
  /-- RSV ≠ 0. -/
  | reservedBits (rsv : BitVec 8)
  /-- OP in 0x08 to 0xFF. -/
  | reservedOpcode (op : BitVec 8)
deriving DecidableEq, Repr

/-- `decode(w)` of R64, total over all 2^32 words. -/
def decode (w : Word) : Except IllegalWord Instr :=
  if rsvField w ≠ 0 then .error (.reservedBits (rsvField w))
  else
    match (opField w).toNat with
    | 0x00 => .ok (.nop (symField w) (lenField w))
    | 0x01 => .ok (.sreset (symField w) (lenField w))
    | 0x02 => .ok (.clear (symField w) (lenField w))
    | 0x03 => .ok (.load (symField w) (lenField w))
    | 0x04 => .ok (.read (symField w) (lenField w))
    | 0x05 => .ok (.begin (symField w) (lenField w))
    | 0x06 => .ok (.enc (symField w) (lenField w))
    | 0x07 => .ok (.finish (symField w) (lenField w))
    | _ => .error (.reservedOpcode (opField w))

/-- A word from its fields: OP in bits 7:0, SYM in 15:8, LEN in 23:16, RSV = 0 (R61). -/
def packWord (len : Len) (sym : Sym) (op : BitVec 8) : Word :=
  BitVec.ofNat 32 (op.toNat + 2 ^ 8 * sym.toNat + 2 ^ 16 * len.toNat)

/-- The word of a command, its ignored fields as the term holds them; on a well-formed term this is the
canonical word (R63). -/
def encode : Instr → Word
  | .nop isym ilen => packWord ilen isym 0x00
  | .sreset isym ilen => packWord ilen isym 0x01
  | .clear isym ilen => packWord ilen isym 0x02
  | .load sym len => packWord len sym 0x03
  | .read sym ilen => packWord ilen sym 0x04
  | .begin isym ilen => packWord ilen isym 0x05
  | .enc sym ilen => packWord ilen sym 0x06
  | .finish isym ilen => packWord ilen isym 0x07

/-- What the decoder reads from a command of `nbits` bits (the bits above are 0); a command is one 32-bit word
and none is longer (R62). -/
def decodeTableWord (nbits w : Nat) : Option Instr :=
  if nbits ≤ 32 then
    match decode (BitVec.ofNat 32 (w % 2 ^ nbits)) with
    | .ok i => some i
    | .error _ => none
  else none

end Sys2Proof
end

