-- ==== Sys2Proof/Config.lean ====
section
/-! DEFINITION. What an implementation of the HBP fixes (R9), and the one free value the spec leaves open (R39). -/

namespace Sys2Proof

/-- The parameters of R9 that stay open or may be chosen by an implementation. They are constants of one
HBP: `State` holds them, no step changes them, and a claim about every state is a claim about every choice. -/
structure Params where
  /-- `OUT_CAP`, the bytes of OUT_BUF, as register CAP reads it (R30). -/
  outCap : Word
  /-- `MAX_LEN`, the longest code length accepted, as register CFG reads it (R31). -/
  maxLen : BitVec 8
  /-- `BASE`, the host address of register offset 0 (R44). -/
  base : Nat
deriving DecidableEq, Repr

/-- The ranges R9 gives: 1 <= OUT_CAP <= 2^32 - 4096, 1 <= MAX_LEN <= 255, BASE 4096-byte aligned. -/
abbrev Params.Ok (p : Params) : Prop :=
  1 ≤ p.outCap.toNat ∧ p.outCap.toNat ≤ 2 ^ 32 - 4096 ∧ 1 ≤ p.maxLen.toNat ∧ p.base % 4096 = 0

/-- The parameters of `State.reset`: OUT_CAP = 4096 and BASE = 0 (DESIGN CHOICE, log 1: R9 leaves both OPEN)
and MAX_LEN = 255, R9's own value. -/
def Config.resetParams : Params := ⟨4096, 255, 0⟩

/-- The constant of register ID, "HBP1" (R21). -/
def Config.idWord : Word := 0x48425031

/-- The value of an OUT_BUF byte the spec says nothing about (R39: "a model treats a read of them as any
value"). It may depend on how many hardware resets there have been, on the offset, and on the byte the HBP last
wrote there (none: nothing since that reset); nothing is known of it (log 4). -/
opaque Config.unspecifiedByte : Nat → Nat → Option Byte → Byte

end Sys2Proof
end

