-- ==== Sys2Proof/Machine/State.lean ====
section
/-! DEFINITION. Everything the spec gives the machine (10_state.md), as plain data, and the state after
hardware reset (R42, R119). -/

namespace Sys2Proof.Machine

/-- STATUS.STATE (R23). -/
inductive Phase where
  /-- 0 IDLE: no message open, no result. -/
  | idle
  /-- 1 ENC: a message is open. -/
  | enc
  /-- 2 DONE: the last message was finished; its payload is in OUT_BUF[0..OUT_LEN-1]. -/
  | done
  /-- 3 ERR: a command failed. -/
  | err
deriving DecidableEq, Repr

/-- STATUS.ERRCODE (R23, R102). The values 6 to 15 are "never produced" and cannot be written here
(K1.19, log 11). -/
inductive ErrCode where
  | none
  /-- 1: RSV ≠ 0 or a reserved opcode. -/
  | illegal
  /-- 2: the command is not legal in the current state. -/
  | state
  /-- 3: LOAD with LEN = 0 or LEN > MAX_LEN. -/
  | badLen
  /-- 4: ENC of a symbol with no valid entry. -/
  | noCode
  /-- 5: ENC of a code that does not fit. -/
  | overflow
deriving DecidableEq, Repr

/-- One code-table entry `CT[s]` (R34). -/
structure Entry where
  /-- V. -/
  valid : Bool
  /-- L, the code length. -/
  len : Len
  /-- C, the code value, right-aligned: the first-emitted bit is C[L-1]. -/
  code : BitVec 255
deriving DecidableEq, Repr

/-- `{V = 0, L = 0, C = 0}` (R34). -/
def Entry.invalid : Entry := ⟨false, 0, 0⟩

/-- The bytes of OUT_BUF the HBP has written since the last hardware reset, by offset, in one canonical form
(strictly rising offsets); an unlisted offset has NO value (log 6). -/
abbrev Memory := List Host.Cell

/-- What the world outside the HBP does to it: host accesses of `n` bytes at a host address (R13, R43), and the
hardware reset (R119). -/
inductive HostEvent where
  /-- A host read of `n` bytes. -/
  | read (addr n : Nat)
  /-- A host write of `n` bytes of `v`. -/
  | write (addr n : Nat) (v : Word)
  /-- Hardware reset. -/
  | hwReset
deriving DecidableEq, Repr

/-- The machine: the HBP's own state, the model's own reset counter, and the host agent (R16). -/
structure State where
  /-- OUT_CAP, MAX_LEN and BASE, constant: registers CAP (R30), CFG (R31). -/
  params : Params
  /-- STATUS.STATE (R23). -/
  phase : Phase
  /-- STATUS.ERRCODE (R23). -/
  errCode : ErrCode
  /-- ERRCMD (R24). -/
  errCmd : Word
  /-- BITCNT (R25). -/
  bitCnt : BitVec 64
  /-- OUT_PTR (R26). -/
  outPtr : Word
  /-- OUT_LEN (R27). -/
  outLen : Word
  /-- PAD (R28). -/
  pad : BitVec 3
  /-- ACC.ACC (R29). -/
  acc : BitVec 8
  /-- ACC.ACC_N (R29), 0 to 7. -/
  accN : BitVec 3
  /-- RD_LEN.LEN (R32). -/
  rdLen : Len
  /-- RD_LEN.VALID (R32). -/
  rdValid : Bool
  /-- CODE_DATA[0..7] (R33). -/
  codeData : Vector Word 8
  /-- CT[0..255] (R34). -/
  ct : Vector Entry 256
  /-- OUT_BUF (R38). -/
  outBuf : Memory
  /-- The model's own: how many hardware resets there have been; it only indexes free values (log 7). -/
  epoch : Nat
  /-- The host agent: what it will still do, first element next (log 2). -/
  pending : List HostEvent
  /-- The host agent: what its reads have returned, oldest first (log 2). -/
  received : List Word
deriving DecidableEq, Repr

/-- Why a run stops with a fault. -/
inductive Fault where
  /-- `BadAccess(off, n)`: a host access of a wrong width, misaligned, or past the end of the window (R49, K1.12,
  K1.13). Raised by a host read or write. Safe: the spec gives it no value and the HBP changes no state (R110). -/
  | badAccess (off n : Nat)
  /-- A host access below BASE: it does not reach the HBP (R43, R44; log 9). Raised by a host read or write. Safe:
  the spec says nothing of what is there. -/
  | outsideWindow (addr n : Nat)
deriving DecidableEq, Repr

/-- Why an instruction has no meaning. -/
inductive Refusal where
  /-- An instruction of the opcode table without a meaning yet. Raised by no arm of this model. Safe. -/
  | notModelled (mnemonic : String)
deriving DecidableEq, Repr

/-- An HBP with parameters `p` right after hardware reset number `epoch` (R42, R119), with no host activity. -/
def State.resetWith (p : Params) (epoch : Nat) : State where
  params := p
  phase := .idle
  errCode := .none
  errCmd := 0
  bitCnt := 0
  outPtr := 0
  outLen := 0
  pad := 0
  acc := 0
  accN := 0
  rdLen := 0
  rdValid := false
  codeData := Vector.replicate 8 0
  ct := Vector.replicate 256 Entry.invalid
  outBuf := []
  epoch := epoch
  pending := []
  received := []

/-- The machine right after reset (R42); its parameters are log 1's, its epoch and host lists log 2's and 7's. -/
def State.reset : State := State.resetWith Config.resetParams 0

end Sys2Proof.Machine
end

