-- ==== Sys2Proof/Machine/Ops.lean ====
section
/-! DEFINITION. The shared operations: OUT_BUF as a memory (R38, R52), the code table (R34), CODE_DATA (R33),
error entry and the way out of it (R106, R108), and the two resets (R75, R119). -/

namespace Sys2Proof.Machine

/-- The byte last written at an offset, none when the HBP has written none since the last hardware reset. -/
def Memory.read : Memory → Nat → Option Byte
  | [], _ => none
  | (a, b) :: m, i => if a = i then some b else Memory.read m i

/-- Write one byte, keeping the offsets strictly rising. -/
def Memory.write : Memory → Nat → Byte → Memory
  | [], i, v => [(i, v)]
  | (a, b) :: m, i, v =>
    if a < i then (a, b) :: Memory.write m i v
    else if a = i then (i, v) :: m
    else (i, v) :: (a, b) :: m

/-- The canonical form: the offsets rise strictly. (An unlisted offset has no value at all, so no entry can
equal what it reads as.) -/
abbrev Memory.wf (m : Memory) : Prop := m.Pairwise (fun x y => x.1 < y.1)

/-- `MemWrite(i, 1, v)`: `OUT_BUF[i] <- v` (R52). Its callers keep i < OUT_CAP (log 8). -/
def memWrite (i : Word) (v : Byte) (s : State) : State :=
  { s with outBuf := Memory.write s.outBuf i.toNat v }

/-- `CT[s]` (R34). -/
def State.entry (s : State) (sym : Sym) : Entry := s.ct[sym.toNat]'(sym.isLt)

/-- `CT[s] <- e`. -/
def setEntry (sym : Sym) (e : Entry) (s : State) : State :=
  { s with ct := s.ct.set sym.toNat e sym.isLt }

/-- `for s in 0..255: CT[s] <- {V = 0, L = 0, C = 0}` (R75, R76). -/
def invalidateTable (s : State) : State :=
  { s with ct := Vector.replicate 256 Entry.invalid }

/-- `CD = CODE_DATA[7] ++ ... ++ CODE_DATA[0]`: word k in bits 32k+31 to 32k (R33). -/
def State.codeValue (s : State) : BitVec 256 :=
  (List.finRange 8).foldr
    (fun (k : Fin 8) (v : BitVec 256) => v ||| (s.codeData[k].setWidth 256 <<< (32 * k.val))) 0

/-- A host write of CODE_DATA[k] (R33). -/
def setCodeWord (k : Fin 8) (v : Word) (s : State) : State :=
  { s with codeData := s.codeData.set k.val v k.isLt }

/-- `for w in 0..7: CODE_DATA[w] <- v[32w+31 : 32w]` (R78). -/
def setCodeValue (v : BitVec 256) (s : State) : State :=
  { s with codeData := Vector.ofFn (fun k : Fin 8 => v.extractLsb' (32 * k.val) 32) }

/-- `raise E(w)`, error entry (R106): the first error is recorded with its command word, STATE becomes ERR, and
nothing else is written. -/
def State.raised (e : ErrCode) (w : Word) (s : State) : State :=
  { s with
    errCode := if s.errCode = .none then e else s.errCode
    errCmd := if s.errCode = .none then w else s.errCmd
    phase := .err }

/-- A command that raises ends there (R106): the HBP goes on in the state `raised` gives. -/
def raise (e : ErrCode) (w : Word) (s : State) : Host.Outcome State Fault Refusal :=
  .next (s.raised e w)

/-- Leaving ERR (R108): what BEGIN and SRESET write to STATUS and ERRCMD; `p` is the state entered. -/
def leaveError (p : Phase) (s : State) : State :=
  { s with phase := p, errCode := .none, errCmd := 0 }

/-- The message registers after SRESET (R75). -/
def clearMessage (s : State) : State :=
  { s with bitCnt := 0, outPtr := 0, outLen := 0, pad := 0, acc := 0, accN := 0 }

/-- The staging registers after SRESET (R75). -/
def clearStaging (s : State) : State :=
  { s with rdLen := 0, rdValid := false, codeData := Vector.replicate 8 0 }

/-- Hardware reset (R119): R42's values, every OUT_BUF byte unspecified again (a new epoch, log 7); the
parameters and the host agent are not the HBP's to reset. -/
def hardReset (s : State) : State :=
  { State.resetWith s.params (s.epoch + 1) with pending := s.pending, received := s.received }

end Sys2Proof.Machine
end

