-- ==== Sys2Proof/Machine/Control.lean ====
section
/-! DEFINITION. The control commands NOP and SRESET (40_control_commands.md). -/

namespace Sys2Proof.Machine

/-- NOP (R74): nothing, in every state. -/
def execNop (_isym : Sym) (_ilen : Len) (s : State) : Host.Outcome State Fault Refusal :=
  .next s

/-- SRESET's pseudocode (R75): every register and the code table to their reset values, OUT_BUF unchanged. -/
def softReset (s : State) : State :=
  invalidateTable (clearStaging (clearMessage (leaveError .idle s)))

/-- SRESET (R75), in every state. -/
def execSreset (_isym : Sym) (_ilen : Len) (s : State) : Host.Outcome State Fault Refusal :=
  .next (softReset s)

end Sys2Proof.Machine
end

