-- ==== Sys2Proof/Machine/Flags.lean ====
section
/-! DEFINITION. The status words (R23, R29, R32), the legality table (R109), and the arithmetic that decides
padding and capacity (R12, R82, R81, R130). -/

namespace Sys2Proof.Machine

/-- The two bits of STATUS.STATE (R23). -/
def Phase.bits : Phase → BitVec 2
  | .idle => 0
  | .enc => 1
  | .done => 2
  | .err => 3

/-- The four bits of STATUS.ERRCODE (R23, R102). -/
def ErrCode.bits : ErrCode → BitVec 4
  | .none => 0
  | .illegal => 1
  | .state => 2
  | .badLen => 3
  | .noCode => 4
  | .overflow => 5

/-- Register STATUS: STATE in bits 1:0, ERRCODE in bits 7:4, the rest 0 (R23). -/
def statusWord (s : State) : Word := BitVec.ofNat 32 (s.phase.bits.toNat + 2 ^ 4 * s.errCode.bits.toNat)

/-- Register ACC: ACC in bits 7:0, ACC_N in bits 10:8, the rest 0 (R29). -/
def accWord (s : State) : Word := BitVec.ofNat 32 (s.acc.toNat + 2 ^ 8 * s.accN.toNat)

/-- Register RD_LEN: LEN in bits 7:0, VALID in bit 8, the rest 0 (R32). -/
def rdLenWord (s : State) : Word := BitVec.ofNat 32 (s.rdLen.toNat + 2 ^ 8 * s.rdValid.toNat)

/-- `ceil8(n) = (n + 7) div 8` (R12). -/
def ceil8 (n : Nat) : Nat := (n + 7) / 8

/-- The padding count of `n` code bits, "`padding = (8 - len(bits) mod 8) mod 8`" (R28, R82). -/
def padCount (n : Nat) : Nat := (8 - n % 8) % 8

/-- ENC's capacity check, `1 + ceil8(BITCNT + L) > OUT_CAP`, on unbounded naturals (R81, R130). -/
def overflows (s : State) (len : Len) : Bool :=
  decide (s.params.outCap.toNat < 1 + ceil8 (s.bitCnt.toNat + len.toNat))

/-- LOAD's length check, `l == 0 or l > MAX_LEN` (R77). -/
def badLength (s : State) (len : Len) : Bool :=
  decide (len = 0) || decide (s.params.maxLen < len)

end Sys2Proof.Machine
end

