-- ==== Sys2Proof/Machine/Operands.lean ====
section
/-! DEFINITION. The operands: the code of an entry (R35), the code operand of LOAD (R66, R67, R77), and the
places a host access can name (R20, R44, R49). -/

namespace Sys2Proof.Machine

/-- `code(s) = C[L-1] ++ C[L-2] ++ ... ++ C[0]`, first-emitted bit first (R35). -/
def Entry.bits (e : Entry) : Bits :=
  (List.range e.len.toNat).reverse.map (fun i => e.code.getLsbD i)

/-- `zext_255(CD[l-1:0])`: the bits of CODE_DATA that LOAD keeps (R66, R67, R77). -/
def codeOperand (cd : BitVec 256) (len : Len) : BitVec 255 :=
  BitVec.ofNat 255 (cd.toNat % 2 ^ len.toNat)

/-- The host registers (R20). -/
inductive Reg where
  | id | cmd | status | errCmd | bitCntLo | bitCntHi | outPtr | outLen | pad | acc | cap | cfg | rdLen
  | codeData (w : Fin 8)
deriving DecidableEq, Repr

/-- The offset of a register (R20). -/
def Reg.offset : Reg → Nat
  | .id => 0x000
  | .cmd => 0x004
  | .status => 0x008
  | .errCmd => 0x00C
  | .bitCntLo => 0x010
  | .bitCntHi => 0x014
  | .outPtr => 0x018
  | .outLen => 0x01C
  | .pad => 0x020
  | .acc => 0x024
  | .cap => 0x028
  | .cfg => 0x02C
  | .rdLen => 0x030
  | .codeData w => 0x040 + 4 * w.val

/-- Every register, in the order of R20's table. -/
def Reg.all : List Reg :=
  [.id, .cmd, .status, .errCmd, .bitCntLo, .bitCntHi, .outPtr, .outLen, .pad, .acc, .cap, .cfg, .rdLen,
    .codeData 0, .codeData 1, .codeData 2, .codeData 3, .codeData 4, .codeData 5, .codeData 6, .codeData 7]

/-- The register at an offset, none at a reserved one (R20). -/
def regAt (off : Nat) : Option Reg := Reg.all.find? (fun r => r.offset == off)

/-- What an accepted host access names (R44). -/
inductive Target where
  | reg (r : Reg)
  | reserved
  | buf (i : Nat)
deriving DecidableEq, Repr

/-- The offset of OUT_BUF[0] in the host window (R20, R44). -/
def bufOffset : Nat := 0x1000

/-- What a host access of `n` bytes at window offset `off` names; none for a bad access (R49). -/
def targetAt (outCap off n : Nat) : Option Target :=
  if off < bufOffset then
    if n = 4 ∧ off % 4 = 0 then
      match regAt off with
      | some r => some (.reg r)
      | none => some .reserved
    else none
  else if (n = 1 ∨ n = 2 ∨ n = 4) ∧ off % n = 0 ∧ off + n ≤ bufOffset + outCap then
    some (.buf (off - bufOffset))
  else none

end Sys2Proof.Machine
end

