-- ==== Sys2Proof/Machine/Stream.lean ====
section
/-! DEFINITION. The message commands BEGIN, ENC and FINISH (42_stream_commands.md). -/

namespace Sys2Proof.Machine

/-- `AppendBit(b)` (R79). The bit shifted out of bit 7 of ACC is dropped; ACC_N reaches 8 only here, where it is
cleared at once (R130). -/
def appendBit (s : State) (b : Bool) : State :=
  let acc : Byte := (s.acc <<< 1) ||| (BitVec.ofBool b).setWidth 8
  let n := s.accN.toNat + 1
  if n = 8 then
    { memWrite s.outPtr acc s with
      acc := 0, accN := 0, bitCnt := s.bitCnt + 1, outPtr := s.outPtr + 1 }
  else
    { s with acc := acc, accN := BitVec.ofNat 3 n, bitCnt := s.bitCnt + 1 }

/-- ENC's loop: the bits of a code in order, first-emitted bit first (R81). -/
def appendBits (bs : Bits) (s : State) : State := bs.foldl appendBit s

/-- BEGIN's pseudocode (R80): the error cleared, an empty message, OUT_BUF[0] kept free for the header. -/
def openMessage (s : State) : State :=
  { clearMessage (leaveError .enc s) with outPtr := 1 }

/-- BEGIN (R80). -/
def execBegin (isym : Sym) (ilen : Len) (s : State) : Host.Outcome State Fault Refusal :=
  if s.phase = .enc then raise .state (encode (.begin isym ilen)) s
  else .next (openMessage s)

/-- ENC sym (R81): the three checks in R105's order, all before any bit is appended. -/
def execEnc (sym : Sym) (ilen : Len) (s : State) : Host.Outcome State Fault Refusal :=
  let w := encode (.enc sym ilen)
  let e := s.entry sym
  if s.phase ≠ .enc then raise .state w s
  else if e.valid = false then raise .noCode w s
  else if overflows s e.len then raise .overflow w s
  else .next (appendBits e.bits s)

/-- FINISH's last byte, when the message does not end on a byte boundary: ACC with the padding zeros at the
bottom (R82). -/
def flushAcc (s : State) : State :=
  if s.accN = 0 then s
  else { memWrite s.outPtr (s.acc <<< (8 - s.accN.toNat)) s with outPtr := s.outPtr + 1 }

/-- FINISH's pseudocode (R82): the padding count, the last byte, the header in OUT_BUF[0], OUT_LEN, state DONE. -/
def finishMessage (s : State) : State :=
  let pad : BitVec 3 := BitVec.ofNat 3 (padCount s.bitCnt.toNat)
  let s1 := memWrite 0 (pad.setWidth 8) (flushAcc { s with pad := pad })
  { s1 with acc := 0, accN := 0, outLen := s1.outPtr, phase := .done }

/-- FINISH (R82). -/
def execFinish (isym : Sym) (ilen : Len) (s : State) : Host.Outcome State Fault Refusal :=
  if s.phase ≠ .enc then raise .state (encode (.finish isym ilen)) s
  else .next (finishMessage s)

end Sys2Proof.Machine
end

