-- ==== Sys2Proof/Machine/Table.lean ====
section
/-! DEFINITION. The code-table commands CLEAR, LOAD and READ (41_table_commands.md). -/

namespace Sys2Proof.Machine

/-- CLEAR (R76). -/
def execClear (isym : Sym) (ilen : Len) (s : State) : Host.Outcome State Fault Refusal :=
  if s.phase = .enc then raise .state (encode (.clear isym ilen)) s
  else .next (invalidateTable s)

/-- LOAD sym, len (R77): the STATE check comes before the length check (R105). -/
def execLoad (sym : Sym) (len : Len) (s : State) : Host.Outcome State Fault Refusal :=
  if s.phase = .enc then raise .state (encode (.load sym len)) s
  else if badLength s len then raise .badLen (encode (.load sym len)) s
  else .next (setEntry sym ⟨true, len, codeOperand s.codeValue len⟩ s)

/-- READ's pseudocode (R78): the entry's code to CODE_DATA, its length and validity to RD_LEN. -/
def stageEntry (e : Entry) (s : State) : State :=
  { setCodeValue (e.code.setWidth 256) s with rdLen := e.len, rdValid := e.valid }

/-- READ sym (R78), in every state. -/
def execRead (sym : Sym) (_ilen : Len) (s : State) : Host.Outcome State Fault Refusal :=
  .next (stageEntry (s.entry sym) s)

end Sys2Proof.Machine
end

