-- ==== Sys2Proof/Machine/Dispatch.lean ====
section
/-! DEFINITION. One arm per command (R63). -/

namespace Sys2Proof.Machine

/-- Perform a decoded command (R22, R64). -/
def exec (i : Instr) (s : State) : Host.Outcome State Fault Refusal :=
  match i with
  | .nop isym ilen => Sys2Proof.Machine.execNop isym ilen s
  | .sreset isym ilen => Sys2Proof.Machine.execSreset isym ilen s
  | .clear isym ilen => Sys2Proof.Machine.execClear isym ilen s
  | .load sym len => Sys2Proof.Machine.execLoad sym len s
  | .read sym ilen => Sys2Proof.Machine.execRead sym ilen s
  | .begin isym ilen => Sys2Proof.Machine.execBegin isym ilen s
  | .enc sym ilen => Sys2Proof.Machine.execEnc sym ilen s
  | .finish isym ilen => Sys2Proof.Machine.execFinish isym ilen s

end Sys2Proof.Machine
end

