-- ==== Sys2Proof/Machine/HostBus.lean ====
section
/-! DEFINITION. The host window (20_memory.md): what a host read returns, what a host write does, and how a
write to CMD performs a command (R22). -/

namespace Sys2Proof.Machine

/-- Whether the host may rely on OUT_BUF[i] (R39; in ERR only the payload R107 keeps readable, log 5). -/
def definedByte (s : State) (i : Nat) : Bool :=
  match s.phase with
  | .idle => false
  | .enc => decide (1 ≤ i) && decide (i < s.outPtr.toNat)
  | .done => decide (i < s.outLen.toNat)
  | .err => decide (i < s.outLen.toNat)

/-- The byte a host read of OUT_BUF[i] sees: the stored byte where the spec lets the host rely on it, any value
elsewhere (R38, R39, K1.9 to K1.11, log 4). -/
def hostByte (s : State) (i : Nat) : Byte :=
  match definedByte s i, Memory.read s.outBuf i with
  | true, some b => b
  | _, stored => Config.unspecifiedByte s.epoch i stored

/-- Little-endian byte lanes: the first byte in bits 7:0 (R47). -/
def lanes : List Byte → Nat
  | [] => 0
  | b :: bs => b.toNat + 256 * lanes bs

/-- `MemRead(i, n)` (R51), zero-extended to the host's word (log 12). -/
def readBuf (s : State) (i n : Nat) : Word :=
  BitVec.ofNat 32 (lanes ((List.range n).map (fun j => hostByte s (i + j))))

/-- A host read of a register (R20 to R33); CMD reads 0 (R50). -/
def readReg (s : State) : Reg → Word
  | .id => Config.idWord
  | .cmd => 0
  | .status => statusWord s
  | .errCmd => s.errCmd
  | .bitCntLo => s.bitCnt.extractLsb' 0 32
  | .bitCntHi => s.bitCnt.extractLsb' 32 32
  | .outPtr => s.outPtr
  | .outLen => s.outLen
  | .pad => s.pad.setWidth 32
  | .acc => accWord s
  | .cap => s.params.outCap
  | .cfg => s.params.maxLen.setWidth 32
  | .rdLen => rdLenWord s
  | .codeData w => s.codeData[w]

/-- The value of an accepted host read; a reserved offset reads 0 (R50). -/
def readTarget (s : State) (n : Nat) : Target → Word
  | .reg r => readReg s r
  | .reserved => 0
  | .buf i => readBuf s i n

/-- A 32-bit write of `w` to CMD performs the command that `w` encodes (R22); an illegal word is performed as
`raise ILLEGAL(w)` (R64, R69). -/
def performWord (w : Word) (s : State) : Host.Outcome State Fault Refusal :=
  match decode w with
  | .ok i => exec i s
  | .error _ => raise .illegal w s

/-- An accepted host write: CMD performs a command, CODE_DATA[w] stores the word, and a write to a read-only
register, a reserved offset or OUT_BUF is ignored (R50, R53). -/
def writeTarget (v : Word) (s : State) : Target → Host.Outcome State Fault Refusal
  | .reg .cmd => performWord v s
  | .reg (.codeData w) => .next (setCodeWord w v s)
  | .reg .id | .reg .status | .reg .errCmd | .reg .bitCntLo | .reg .bitCntHi | .reg .outPtr | .reg .outLen
  | .reg .pad | .reg .acc | .reg .cap | .reg .cfg | .reg .rdLen | .reserved | .buf _ => .next s

/-- Find what an access names, or fault: below BASE it is outside the window (log 9); a bad access faults with
its window offset (R49). -/
def withTarget (addr n : Nat) (s : State) (k : Target → Host.Outcome State Fault Refusal) :
    Host.Outcome State Fault Refusal :=
  if addr < s.params.base then .fault (.outsideWindow addr n)
  else
    match targetAt s.params.outCap.toNat (addr - s.params.base) n with
    | some t => k t
    | none => .fault (.badAccess (addr - s.params.base) n)

/-- One event of the outside world, taken whole (R55, R56). A read changes nothing of the HBP (R53); its value goes
to the host. -/
def hostAct (e : HostEvent) (s : State) : Host.Outcome State Fault Refusal :=
  match e with
  | .read addr n =>
    withTarget addr n s (fun t => .next { s with received := s.received ++ [readTarget s n t] })
  | .write addr n v => withTarget addr n s (writeTarget v s)
  | .hwReset => .next (hardReset s)

/-- The host's next event; with none the HBP "holds its state and does nothing" (R118, R120, log 3). -/
def nextEvent (s : State) : Host.Outcome State Fault Refusal :=
  match s.pending with
  | [] => .next s
  | e :: rest => hostAct e { s with pending := rest }

/-- The host write that issues a command word (R13: `CMD` is `WR 0x004`). -/
def cmdWrite (p : Params) (w : Word) : HostEvent := .write (p.base + Reg.cmd.offset) 4 w

/-- `s` with the host about to write `w` to CMD. -/
def issueWord (w : Word) (s : State) : State :=
  { s with pending := cmdWrite s.params w :: s.pending }

/-- Commands performed one after another, stopping at the first fault or refusal (R55). -/
def execAll : List Instr → State → Host.Outcome State Fault Refusal
  | [], s => .next s
  | i :: is, s =>
    match exec i s with
    | .next t => execAll is t
    | .fault r => .fault r
    | .refused r => .refused r

end Sys2Proof.Machine
end

