-- ==== Sys2Proof/Machine/Reference.lean ====
section
/-! DEFINITION. The host-side reference functions (48_reference_functions.md) and the packing function of R83:
pure functions beside the machine, which performs none of them (R5). -/

namespace Sys2Proof.Reference

open Sys2Proof.Machine (ceil8 padCount State Entry)

/-- A frequency map as its (symbol, count) pairs (R14, log 13). -/
abbrev FreqMap := List (Sym × Nat)

/-- A code table as its (symbol, code) pairs (R14, R91, log 13). -/
abbrev CodeTable := List (Sym × Bits)

/-- Every symbol, ascending. -/
def allSyms : List Sym := (List.range 256).map (BitVec.ofNat 8)

/-- `FreqCount(B)` (R89), its keys in ascending order. -/
def freqCount (b : List Sym) : FreqMap :=
  (allSyms.filter (fun s => b.contains s)).map (fun s => (s, b.count s))

/-- A code tree (R90). -/
inductive Tree where
  | leaf (sym : Sym) (weight : Nat)
  | node (left right : Tree) (weight : Nat)
deriving DecidableEq, Repr

/-- `x.weight` (R90). -/
def Tree.weight : Tree → Nat
  | .leaf _ w => w
  | .node _ _ w => w

/-- One element of the priority queue: a tree with its insertion sequence number (R90). -/
structure QItem where
  tree : Tree
  seq : Nat
deriving DecidableEq, Repr

/-- Keys (weight, seq) in lexicographic order (R90). -/
def QItem.before (x y : QItem) : Bool :=
  decide (x.tree.weight < y.tree.weight) ||
    (decide (x.tree.weight = y.tree.weight) && decide (x.seq < y.seq))

/-- Push onto the queue, held in key order so that its head is the minimum (R90). -/
def pushQ (x : QItem) : List QItem → List QItem
  | [] => [x]
  | y :: q => if x.before y then x :: y :: q else y :: pushQ x q

/-- The merge loop of R90: "left = first pop", "right = second pop". Each merge shortens the queue by one, so its
length is fuel enough. -/
def mergeQ : Nat → Nat → List QItem → Option Tree
  | _, _, [] => none
  | _, _, [x] => some x.tree
  | 0, _, _ :: _ :: _ => none
  | fuel + 1, seq, x :: y :: q =>
    mergeQ fuel (seq + 1)
      (pushQ ⟨.node x.tree y.tree (x.tree.weight + y.tree.weight), seq⟩ q)

/-- The leaves in ascending symbol order, whatever the order the map is held in (R90, R95, C1). -/
def leavesOf (f : FreqMap) : List Tree :=
  allSyms.filterMap (fun s => (f.lookup s).map (fun w => Tree.leaf s w))

/-- The queue after every leaf is pushed, the k-th leaf with sequence number k (R90). -/
def initialQ (ls : List Tree) : List QItem :=
  ls.zipIdx.foldl (fun q l => pushQ ⟨l.1, l.2⟩ q) []

/-- `BuildTree(F)` (R90); an empty map has no tree (K1.23). -/
def buildTree (f : FreqMap) : Option Tree :=
  mergeQ (leavesOf f).length (leavesOf f).length (initialQ (leavesOf f))

/-- The path of every leaf, "append "0" descending left, "1" descending right" (R91). -/
def Tree.paths : Tree → Bits → CodeTable
  | .leaf s _, path => [(s, path)]
  | .node l r _, path => l.paths (path ++ [false]) ++ r.paths (path ++ [true])

/-- `GenCodes(root)`: the paths (R91), and the code "0" for a root that is a leaf (R92). -/
def genCodes : Tree → CodeTable
  | .leaf s _ => [(s, [false])]
  | .node l r w => (Tree.node l r w).paths []

/-- The table the host computes for a byte sequence (R88); none for an empty one. -/
def hostTable (b : List Sym) : Option CodeTable := (buildTree (freqCount b)).map genCodes

/-- `TableWellFormed(T)` (R93): T is a map, its codes are 1 to MAX_LEN bits long, no two symbols share a code,
and no code is a proper prefix of another. -/
structure TableWellFormed (maxLen : Nat) (t : CodeTable) : Prop where
  isMap : (t.map Prod.fst).Nodup
  lengths : ∀ e ∈ t, 1 ≤ e.2.length ∧ e.2.length ≤ maxLen
  bijective : (t.map Prod.snd).Nodup
  prefixFree : ∀ e ∈ t, ∀ f ∈ t, e.2 <+: f.2 → e.2 = f.2

/-- A bit sequence read as an unsigned integer, most-significant bit first (R35, R66, R83 `int`). -/
def bitsToNat (bs : Bits) : Nat := bs.foldl (fun v b => 2 * v + b.toNat) 0

/-- The 8-bit MSB-first form of a byte (R96). -/
def byteBits (b : Byte) : Bits := (List.range 8).reverse.map (fun i => b.getLsbD i)

/-- `PB.(8k) .. PB.(8k+7)` as a byte, for every k (R83). -/
def packBytes (pb : Bits) : List Byte :=
  (List.range (pb.length / 8)).map (fun k => BitVec.ofNat 8 (bitsToNat ((pb.drop (8 * k)).take 8)))

/-- `Pack(bits)` (R83): the padding count, then the padded bits in bytes. -/
def pack (bits : Bits) : List Byte :=
  let p := padCount bits.length
  BitVec.ofNat 8 p :: packBytes (bits ++ List.replicate p false)

/-- The status of `Unpack` (R96). -/
inductive UnpackStatus where
  | ok | short | corrupt
deriving DecidableEq, Repr

/-- `Unpack(P)` (R96). -/
def unpack (p : List Byte) : Bits × UnpackStatus :=
  let bits := p.flatMap byteBits
  if bits.length < 8 then ([], .short)
  else
    let pad := bitsToNat (bits.take 8)
    if bits.length < 8 + pad then ([], .corrupt)
    else ((bits.drop 8).take (bits.length - pad - 8), .ok)

/-- The status of `Decode` (R97). -/
inductive DecodeStatus where
  | ok | corrupt
deriving DecidableEq, Repr

/-- `T⁻¹(acc)`: the symbol with this code, if any (R97; the first listed one in a table that is not bijective,
log 13). -/
def symbolOf (t : CodeTable) (code : Bits) : Option Sym :=
  (t.find? (fun e => e.2 == code)).map Prod.fst

/-- The walk of R97: `acc` the bits since the last symbol, `out` the symbols so far. -/
def decodeWalk (t : CodeTable) : Bits → Bits → List Sym → List Sym × DecodeStatus
  | [], acc, out => if acc = [] then (out, .ok) else ([], .corrupt)
  | b :: bs, acc, out =>
    match symbolOf t (acc ++ [b]) with
    | some s => decodeWalk t bs [] (out ++ [s])
    | none => decodeWalk t bs (acc ++ [b]) out

/-- `Decode(bits, T)` (R97), with the special case of the one-entry table {s ↦ "0"}. -/
def decodeBits (bits : Bits) (t : CodeTable) : List Sym × DecodeStatus :=
  match t with
  | [(s, [false])] => (List.replicate bits.length s, .ok)
  | _ => decodeWalk t bits [] []

/-- The table an HBP holds: its valid entries with their codes, ascending (R34, R35). -/
def tableOf (s : State) : CodeTable :=
  (allSyms.filter (fun c => (s.entry c).valid)).map (fun c => (c, Machine.Entry.bits (s.entry c)))

/-- `MB`, the concatenation of the codes of a message's symbols (R15, R83). -/
def messageBits (s : State) (syms : List Sym) : Bits :=
  syms.flatMap (fun c => Machine.Entry.bits (s.entry c))

end Sys2Proof.Reference
end

