-- ==== Sys2Proof/Machine/HostMacros.lean ====
section
/-! DEFINITION. Host programs (R13, R72) and the pseudo-instructions that expand into them (R73). -/

namespace Sys2Proof.Machine

open Sys2Proof.Reference (CodeTable bitsToNat allSyms)

/-- One line of a host program (R72, R73). -/
inductive Line where
  /-- A command line. -/
  | cmd (i : Instr)
  /-- `WR off, value`. -/
  | wr (off : Nat) (v : Word)
  /-- `RD off`. -/
  | rd (off : Nat)
  /-- `MemRead(i, n)`, a host read of OUT_BUF (R12, R51); it has no written form as a line (log 15). -/
  | memRead (i n : Nat)
  /-- `LDCODE sym, "b.0 ... b.(L-1)"`. -/
  | ldCode (sym : Sym) (code : Bits)
  /-- `LDTABLE T`: the table itself, which R73 gives no written form (log 15). -/
  | ldTable (t : CodeTable)
  /-- `ENCSTR "..."`. -/
  | encStr (syms : List Sym)
  /-- `PACK "bytes"`. -/
  | pack (syms : List Sym)
  /-- `RDCODE sym`. -/
  | rdCode (sym : Sym)
  /-- `RDOUT`. -/
  | rdOut
deriving DecidableEq, Repr

/-- The words of a code that LDCODE writes: `CODE_DATA[w] = CD[32w+31 : 32w]` for w = 0 .. (L-1) div 32, CD the code
read most-significant bit first (R66). DESIGN CHOICE (log 17) where R66 defines nothing: the empty code gives one word 0,
and a code above 256 bits gives the 256 last bits of it followed by words 0. -/
def codeWords (code : Bits) : List Word :=
  (List.range ((code.length - 1) / 32 + 1)).map
    (fun w => (BitVec.ofNat 256 (bitsToNat code)).extractLsb' (32 * w) 32)

/-- `LDCODE sym, code` (R73). DESIGN CHOICE (log 17) for a code that LOAD cannot name, where the spec is silent: the
empty code ends in `LOAD sym, 0`, and one of more than 255 bits in a LOAD whose LEN is the low 8 bits of its length. -/
def expandLdCode (sym : Sym) (code : Bits) : List Line :=
  (codeWords code).zipIdx.map (fun x => Line.wr (0x040 + 4 * x.2) x.1) ++
    [.cmd (.load sym (BitVec.ofNat 8 code.length))]

/-- `LDTABLE T` (R73): CLEAR, then LDCODE for every symbol of T in ascending order (of a symbol listed twice, which is no
map, the first code: log 13). -/
def expandLdTable (t : CodeTable) : List Line :=
  .cmd (.clear 0 0) ::
    allSyms.flatMap (fun s => match t.lookup s with
      | some code => expandLdCode s code
      | none => [])

/-- `ENCSTR` (R73). -/
def expandEncStr (syms : List Sym) : List Line := syms.map (fun c => .cmd (.enc c 0))

/-- Expand a line (R73) into commands and accesses. `outLen` is what `RD OUT_LEN` returns in RDOUT: the host decides
on it how many bytes to read. -/
def Line.expand (outLen : Nat) : Line → List Line
  | .ldCode sym code => expandLdCode sym code
  | .ldTable t => expandLdTable t
  | .encStr syms => expandEncStr syms
  | .pack syms => [.cmd (.begin 0 0)] ++ expandEncStr syms ++ [.cmd (.finish 0 0)]
  | .rdCode sym =>
    [.cmd (.read sym 0), .rd Reg.rdLen.offset] ++ (List.range 8).map (fun w => .rd (0x040 + 4 * w))
  | .rdOut => .rd Reg.outLen.offset :: (List.range outLen).map (fun i => .memRead i 1)
  | .cmd i => [.cmd i]
  | .wr off v => [.wr off v]
  | .rd off => [.rd off]
  | .memRead i n => [.memRead i n]

/-- The host access of an expanded line: a command line is a write of its canonical word to CMD (R72). A line that
still is a pseudo-instruction is no access of its own. -/
def Line.access (p : Params) : Line → List HostEvent
  | .cmd i => [cmdWrite p (encode i)]
  | .wr off v => [.write (p.base + off) 4 v]
  | .rd off => [.read (p.base + off) 4]
  | .memRead i n => [.read (p.base + bufOffset + i) n]
  | .ldCode _ _ | .ldTable _ | .encStr _ | .pack _ | .rdCode _ | .rdOut => []

/-- A host program as the accesses it makes (R72, R73). -/
def assemble (p : Params) (outLen : Nat) (prog : List Line) : List HostEvent :=
  (prog.flatMap (Line.expand outLen)).flatMap (Line.access p)

end Sys2Proof.Machine
end

