-- ==== Sys2Proof/Safety.lean ====
section
/-! DEFINITION. What the spec says always holds between commands (R41), and the words the statements use. -/

namespace Sys2Proof.Machine

open Sys2Proof.Reference (byteBits)

/-- What R34 and R41 say of an entry. -/
structure Entry.Ok (p : Params) (e : Entry) : Prop where
  cleared : e.valid = false → e.len = 0 ∧ e.code = 0
  loaded : e.valid = true → 1 ≤ e.len.toNat ∧ e.len ≤ p.maxLen ∧ e.code.toNat < 2 ^ e.len.toNat

/-- The message registers when no message has been opened since reset (R42). -/
structure ResetShape (s : State) : Prop where
  bitCnt : s.bitCnt = 0
  outPtr : s.outPtr = 0
  outLen : s.outLen = 0
  pad : s.pad = 0
  acc : s.acc = 0
  accN : s.accN = 0

/-- The message registers of an open message (R41, first clause), with OUT_LEN and PAD as BEGIN left them and the
bytes written so far in OUT_BUF (R39). -/
structure OpenShape (s : State) : Prop where
  accN : s.accN.toNat = s.bitCnt.toNat % 8
  outPtr : s.outPtr.toNat = 1 + s.bitCnt.toNat / 8
  acc : s.acc.toNat < 2 ^ s.accN.toNat
  fits : 1 + ceil8 s.bitCnt.toNat ≤ s.params.outCap.toNat
  outLen : s.outLen = 0
  pad : s.pad = 0
  written : ∀ i, 1 ≤ i → i < s.outPtr.toNat → (Memory.read s.outBuf i).isSome

/-- The message registers of a finished message (R41, second clause), with its payload in OUT_BUF (R39). -/
structure DoneShape (s : State) : Prop where
  acc : s.acc = 0
  accN : s.accN = 0
  pad : s.pad.toNat = padCount s.bitCnt.toNat
  outLen : s.outLen.toNat = 1 + ceil8 s.bitCnt.toNat
  outPtr : s.outPtr = s.outLen
  fits : s.outLen.toNat ≤ s.params.outCap.toNat
  header : Memory.read s.outBuf 0 = some (s.pad.setWidth 8)
  written : ∀ i, i < s.outLen.toNat → (Memory.read s.outBuf i).isSome

/-- The message registers as STATE says: ERR is entered from any of the other states and keeps them (R41, R107). -/
def MessageShape (s : State) : Prop :=
  match s.phase with
  | .idle => ResetShape s
  | .enc => OpenShape s
  | .done => DoneShape s
  | .err => ResetShape s ∨ OpenShape s ∨ DoneShape s

/-- The invariant of R41 (with R9's ranges, and OUT_BUF a memory in canonical form within OUT_CAP, R38, R52). -/
structure StateInv (s : State) : Prop where
  params : s.params.Ok
  errCode : s.errCode = .none ↔ s.phase ≠ .err
  errCmd : s.phase ≠ .err → s.errCmd = 0
  entries : ∀ sym, (s.entry sym).Ok s.params
  memWf : Memory.wf s.outBuf
  memInside : ∀ c ∈ s.outBuf, c.1 < s.params.outCap.toNat
  message : MessageShape s

/-- The last `n` bits of a byte, the highest first. -/
def lowBits (n : Nat) (b : Byte) : Bits := (List.range n).reverse.map (fun i => b.getLsbD i)

/-- A byte of OUT_BUF as the HBP holds it (0 where it has written none). -/
def storedByte (s : State) (i : Nat) : Byte := (Memory.read s.outBuf i).getD 0

/-- The message bitstring so far: the bits of OUT_BUF[1..OUT_PTR-1], most-significant first, then the ACC_N bits of
ACC (R29, R45). -/
def openBits (s : State) : Bits :=
  (List.range (s.outPtr.toNat - 1)).flatMap (fun k => byteBits (storedByte s (1 + k))) ++ lowBits s.accN.toNat s.acc

/-- The result of a message: `OUT_BUF[0..OUT_LEN-1]` as the host reads it (R123). -/
def payload (s : State) : List Byte := (List.range s.outLen.toNat).map (hostByte s)

/-- R109's table, its column of states for every command. -/
def legalIn : Instr → Phase → Bool
  | .nop _ _, _ | .sreset _ _, _ | .read _ _, _ => true
  | .clear _ _, p | .load _ _, p | .begin _ _, p => p != .enc
  | .enc _ _, p | .finish _ _, p => p == .enc

/-- The resulting STATE of a successful command (R109, after the arrow). -/
def successPhase : Instr → Phase → Phase
  | .nop _ _, p | .read _ _, p | .clear _ _, p | .load _ _, p | .enc _ _, p => p
  | .sreset _ _, _ => .idle
  | .begin _ _, _ => .enc
  | .finish _ _, _ => .done

/-- The cause a command raises, none when it succeeds: STATE first, then LOAD's BADLEN, ENC's NOCODE and OVERFLOW
(R102, R105). -/
def causeOf (i : Instr) (s : State) : Option ErrCode :=
  if legalIn i s.phase = false then some .state
  else
    match i with
    | .load _ len => if len.toNat = 0 ∨ s.params.maxLen.toNat < len.toNat then some .badLen else none
    | .enc sym _ =>
      if (s.entry sym).valid = false then some .noCode
      else if 1 + (s.bitCnt.toNat + (s.entry sym).len.toNat + 7) / 8 > s.params.outCap.toNat then some .overflow
      else none
    | .nop _ _ | .sreset _ _ | .clear _ _ | .read _ _ | .begin _ _ | .finish _ _ => none

/-- The symbols a command sequence encodes, in order. -/
def encodedSyms : List Instr → List Sym
  | [] => []
  | .enc sym _ :: is => sym :: encodedSyms is
  | .nop _ _ :: is | .sreset _ _ :: is | .clear _ _ :: is | .load _ _ :: is | .read _ _ :: is
  | .begin _ _ :: is | .finish _ _ :: is => encodedSyms is

/-- A command that may stand between BEGIN and FINISH of one message: an ENC, or a NOP or READ (R83). -/
def inMessage : Instr → Bool
  | .enc _ _ | .nop _ _ | .read _ _ => true
  | .sreset _ _ | .clear _ _ | .load _ _ | .begin _ _ | .finish _ _ => false

/-- The opcode of a command (R63). -/
def opcodeOf : Instr → BitVec 8
  | .nop _ _ => 0x00
  | .sreset _ _ => 0x01
  | .clear _ _ => 0x02
  | .load _ _ => 0x03
  | .read _ _ => 0x04
  | .begin _ _ => 0x05
  | .enc _ _ => 0x06
  | .finish _ _ => 0x07

/-- Nothing of the message has changed: its registers and every byte of OUT_BUF. -/
structure SameMessage (s t : State) : Prop where
  bitCnt : t.bitCnt = s.bitCnt
  outPtr : t.outPtr = s.outPtr
  outLen : t.outLen = s.outLen
  pad : t.pad = s.pad
  acc : t.acc = s.acc
  accN : t.accN = s.accN
  outBuf : t.outBuf = s.outBuf

/-- STATUS and ERRCMD have not changed. -/
structure SameStatus (s t : State) : Prop where
  phase : t.phase = s.phase
  errCode : t.errCode = s.errCode
  errCmd : t.errCmd = s.errCmd

/-- CODE_DATA and RD_LEN have not changed. -/
structure SameStaging (s t : State) : Prop where
  codeData : t.codeData = s.codeData
  rdLen : t.rdLen = s.rdLen
  rdValid : t.rdValid = s.rdValid

/-- What no command changes: the parameters, the model's reset counter, and the host agent. -/
structure SameWorld (s t : State) : Prop where
  params : t.params = s.params
  epoch : t.epoch = s.epoch
  pending : t.pending = s.pending
  received : t.received = s.received

end Sys2Proof.Machine
end

