-- ==== Sys2Proof/WellFormed.lean ====
section
/-! DEFINITION. Well-formed commands: those an assembler emits (R63, the canonical encoding). The DECODER
accepts more (R68: ignored fields may hold anything), and the machine performs every term of `Instr`. -/

namespace Sys2Proof

/-- The same command with every ignored field 0: "The canonical encoding, the one an assembler emits, has
every ignored field 0" (R63). -/
def Instr.canonical : Instr → Instr
  | .nop _ _ => .nop 0 0
  | .sreset _ _ => .sreset 0 0
  | .clear _ _ => .clear 0 0
  | .load sym len => .load sym len
  | .read sym _ => .read sym 0
  | .begin _ _ => .begin 0 0
  | .enc sym _ => .enc sym 0
  | .finish _ _ => .finish 0 0

/-- A well-formed command is one in canonical form: every field it does not use is 0 (R63). The operand
ranges (SYM 0 to 255, LEN 0 to 255, R65) are those of the fields' types; a LEN outside 1 to MAX_LEN is a legal
encoding whose LOAD raises BADLEN (R77), so it is no matter of well-formedness. -/
def Instr.wellFormed (i : Instr) : Bool :=
  match i with
  | .nop isym ilen => isym == 0 && ilen == 0
  | .sreset isym ilen => isym == 0 && ilen == 0
  | .clear isym ilen => isym == 0 && ilen == 0
  | .load _ _ => true
  | .read _ ilen => ilen == 0
  | .begin isym ilen => isym == 0 && ilen == 0
  | .enc _ ilen => ilen == 0
  | .finish isym ilen => isym == 0 && ilen == 0

end Sys2Proof
end

