-- ==== Sys2Proof/Certificates/Slice0/Obligations.lean ====
section
/-! DEFINITION. The statements for the provers: what the numbered rules of spec/ say the machine does. -/

open Sys2Proof Sys2Proof.Machine Sys2Proof.Reference

/-! ## Encoding -/

/-- Every command, with every value of both operand fields, comes back from its word, and every legal word is the word
of the command it decodes to: no bit is dropped, no two words stand for one term (R61, R63, R64). -/
def Obligations.DecodeAndEncodeAgree : Prop :=
  (∀ i : Instr, decode (encode i) = .ok i) ∧
  (∀ (w : Word) (i : Instr), decode w = .ok i → encode i = w)

/-- R69: a word with RSV ≠ 0 or OP in 0x08 to 0xFF is illegal, and no other; written to CMD it raises ILLEGAL and does
nothing else, in every state. -/
def Obligations.IllegalWordsRaiseIllegal : Prop :=
  ∀ (w : Word) (s : State) (rest : List HostEvent),
    ((w.toNat / 2 ^ 24 ≠ 0 ∨ 8 ≤ w.toNat % 2 ^ 8) ↔ ∀ i : Instr, decode w ≠ .ok i) ∧
    ((w.toNat / 2 ^ 24 ≠ 0 ∨ 8 ≤ w.toNat % 2 ^ 8) →
      step { s with pending := .write (s.params.base + 4) 4 w :: rest } =
        .next { s with
          pending := rest
          phase := .err
          errCode := if s.errCode = .none then .illegal else s.errCode
          errCmd := if s.errCode = .none then w else s.errCmd })

/-- The canonical words of R63 for one operand choice each, and three words with ignored fields set (R68). -/
def Obligations.WrittenOutWordsDecode : Prop :=
  decode 0x00000000 = .ok (.nop 0 0) ∧ decode 0x00000001 = .ok (.sreset 0 0) ∧
  decode 0x00000002 = .ok (.clear 0 0) ∧ decode 0x00036203 = .ok (.load 0x62 3) ∧
  decode 0x00006204 = .ok (.read 0x62 0) ∧ decode 0x00000005 = .ok (.begin 0 0) ∧
  decode 0x00006106 = .ok (.enc 0x61 0) ∧ decode 0x00000007 = .ok (.finish 0 0) ∧
  decode 0x00FFFF00 = .ok (.nop 0xFF 0xFF) ∧ decode 0x00AB6204 = .ok (.read 0x62 0xAB) ∧
  decode 0x00FFFF07 = .ok (.finish 0xFF 0xFF)

/-- R68: two words of one command that differ only in fields it does not use have the same effect; a command that fails
records its own word in ERRCMD (when no error was recorded), and otherwise the two resulting states are equal. RSV is no
such field: no word with RSV ≠ 0 is a command. -/
def Obligations.IgnoredFieldsHaveNoEffect : Prop :=
  (∀ (i j : Instr) (s : State), i.canonical = j.canonical →
    ∃ t u, exec i s = .next t ∧ exec j s = .next u ∧
      ({ t with errCmd := 0 } : State) = { u with errCmd := 0 } ∧
      (s.errCode = .none → t.errCode ≠ .none → t.errCmd = encode i ∧ u.errCmd = encode j) ∧
      (¬ (s.errCode = .none ∧ t.errCode ≠ .none) → t = u)) ∧
  (∀ (w : Word) (i : Instr), w.toNat / 2 ^ 24 ≠ 0 → decode w ≠ .ok i)

/-! ## A step -/

/-- A step whose next host event writes a legal word to CMD (BASE + 4, four bytes) performs the decoded command, the
event being gone from the host's list (R13, R22). -/
def Obligations.StepPerformsDecodedCommand : Prop :=
  ∀ (s : State) (rest : List HostEvent) (w : Word) (i : Instr),
    s.pending = .write (s.params.base + 4) 4 w :: rest → decode w = .ok i →
      step s = exec i { s with pending := rest }

/-- R55, R56: the commands the host writes to CMD are performed whole, one per step, in the order of the writes. -/
def Obligations.CommandsRunInHostOrder : Prop :=
  ∀ (is : List Instr) (rest : List HostEvent) (s : State),
    Host.Core.run Sys2Proof.core is.length
        { s with pending := is.map (fun i => .write (s.params.base + 4) 4 (encode i)) ++ rest } =
      execAll is { s with pending := rest }

/-- R53: a step that takes a host read changes nothing but what the host has received. A step with no host event changes
nothing: that is the model's reading of R118 and R120 (log 3, DEDUCED). -/
def Obligations.StepWithNoEventOrAReadKeepsTheBlock : Prop :=
  ∀ s t : State, step s = .next t →
    (s.pending = [] → t = s) ∧
    (∀ addr n rest, s.pending = .read addr n :: rest →
      ∃ v, t = { s with pending := rest, received := s.received ++ [v] })

/-- CAP, CFG and BASE are constants of the block (R9, R30, R31): no step changes the parameters. -/
def Obligations.ParametersNeverChange : Prop :=
  ∀ s t : State, step s = .next t → t.params = s.params

/-! ## The control commands -/

/-- R74: every word with OP = 0x00 and RSV = 0 is a NOP, whatever SYM and LEN hold, and a NOP leaves every state as it is
(IDLE, ENC, DONE and ERR alike); a word with OP = 0x00 and RSV ≠ 0 raises ILLEGAL. -/
def Obligations.NopChangesNothing : Prop :=
  ∀ (s : State) (rest : List HostEvent) (w : Word), w.toNat % 2 ^ 8 = 0 →
    (w.toNat / 2 ^ 24 = 0 →
      (∃ a b, decode w = .ok (.nop a b) ∧ exec (.nop a b) s = .next s) ∧
      step { s with pending := .write (s.params.base + 4) 4 w :: rest } = .next { s with pending := rest }) ∧
    (w.toNat / 2 ^ 24 ≠ 0 → performWord w s = .next (s.raised .illegal w))

/-- R75, R121: SRESET (OP = 0x01) completes in every state and leaves what hardware reset leaves, except that OUT_BUF
keeps its bytes (and the host and the parameters are no part of it). -/
def Obligations.SresetIsResetKeepingOutBuf : Prop :=
  ∀ (a : Sym) (b : Len) (s : State),
    decode (BitVec.ofNat 32 (0x01 + 2 ^ 8 * a.toNat + 2 ^ 16 * b.toNat)) = .ok (.sreset a b) ∧
    exec (.sreset a b) s =
      .next { State.resetWith s.params s.epoch with
        outBuf := s.outBuf, pending := s.pending, received := s.received }

/-- R119: hardware reset gives R42's values from every state: IDLE, no error, every register 0, every entry invalid, and
no OUT_BUF byte one the host may rely on; the constants stay. -/
def Obligations.HardwareResetGivesResetState : Prop :=
  ∀ (s : State) (rest : List HostEvent), s.pending = .hwReset :: rest →
    ∃ t, step s = .next t ∧
      t.phase = .idle ∧ t.errCode = .none ∧ t.errCmd = 0 ∧ t.bitCnt = 0 ∧ t.outPtr = 0 ∧ t.outLen = 0 ∧ t.pad = 0 ∧
      t.acc = 0 ∧ t.accN = 0 ∧ t.rdLen = 0 ∧ t.rdValid = false ∧ (∀ k : Fin 8, t.codeData[k] = 0) ∧
      (∀ sym, t.entry sym = ⟨false, 0, 0⟩) ∧ (∀ i, definedByte t i = false) ∧
      t.params = s.params ∧ t.pending = rest ∧ t.received = s.received

/-! ## The code-table commands -/

/-- R76: outside ENC, CLEAR (OP = 0x02) makes every entry invalid and changes nothing else; in ENC it raises STATE. -/
def Obligations.ClearInvalidatesEveryEntry : Prop :=
  ∀ (a : Sym) (b : Len) (s : State),
    decode (BitVec.ofNat 32 (0x02 + 2 ^ 8 * a.toNat + 2 ^ 16 * b.toNat)) = .ok (.clear a b) ∧
    (s.phase ≠ .enc →
      ∃ t, exec (.clear a b) s = .next t ∧ (∀ sym, t.entry sym = ⟨false, 0, 0⟩) ∧
        SameMessage s t ∧ SameStatus s t ∧ SameStaging s t ∧ SameWorld s t) ∧
    (s.phase = .enc → exec (.clear a b) s = .next (s.raised .state (encode (.clear a b))))

/-- R77 with R33 and R67: a LOAD (OP = 0x03) of a legal length outside ENC makes the entry valid, with that length and with the code
bits below it taken from CODE_DATA (bit k from word k div 32) and 0 above; it changes no other entry and nothing else.
In ENC it raises STATE, else for length 0 or above MAX_LEN it raises BADLEN. -/
def Obligations.LoadWritesOneEntry : Prop :=
  ∀ (sym : Sym) (len : Len) (s : State),
    decode (BitVec.ofNat 32 (0x03 + 2 ^ 8 * sym.toNat + 2 ^ 16 * len.toNat)) = .ok (.load sym len) ∧
    (s.phase ≠ .enc → 1 ≤ len.toNat → len.toNat ≤ s.params.maxLen.toNat →
      ∃ t, exec (.load sym len) s = .next t ∧
        (t.entry sym).valid = true ∧ (t.entry sym).len = len ∧
        (∀ (k : Nat) (h : k < 255), (t.entry sym).code.getLsbD k =
          (decide (k < len.toNat) && (s.codeData[k / 32]'(by omega)).getLsbD (k % 32))) ∧
        (∀ other, other ≠ sym → t.entry other = s.entry other) ∧
        SameMessage s t ∧ SameStatus s t ∧ SameStaging s t ∧ SameWorld s t) ∧
    (s.phase = .enc → exec (.load sym len) s = .next (s.raised .state (encode (.load sym len)))) ∧
    (s.phase ≠ .enc → (len.toNat = 0 ∨ s.params.maxLen.toNat < len.toNat) →
      exec (.load sym len) s = .next (s.raised .badLen (encode (.load sym len))))

/-- R78: READ (OP = 0x04) completes in every state; CODE_DATA[k] gets bits 32k+31 to 32k of the entry's code, RD_LEN its
length and validity, and nothing else changes. The corner case: for an invalid entry (which holds L = 0 and C = 0, R34:
the premise `Entry.Ok`) CODE_DATA and RD_LEN get 0. -/
def Obligations.ReadCopiesEntry : Prop :=
  ∀ (sym : Sym) (x : Len) (s : State),
    decode (BitVec.ofNat 32 (0x04 + 2 ^ 8 * sym.toNat + 2 ^ 16 * x.toNat)) = .ok (.read sym x) ∧
    ∃ t, exec (.read sym x) s = .next t ∧
      (∀ (k : Fin 8) (j : Nat), j < 32 →
        (t.codeData[k]).getLsbD j = (s.entry sym).code.getLsbD (32 * k.val + j)) ∧
      t.rdLen = (s.entry sym).len ∧ t.rdValid = (s.entry sym).valid ∧
      ((s.entry sym).Ok s.params → (s.entry sym).valid = false →
        (∀ k : Fin 8, t.codeData[k] = 0) ∧ t.rdLen = 0 ∧ t.rdValid = false) ∧
      t.ct = s.ct ∧ SameMessage s t ∧ SameStatus s t ∧ SameWorld s t

/-- A LOAD read back (R66, R67, R77, R78): READ after LOAD gives back the low LEN bits of the CODE_DATA value that LOAD
took, zeros above, and that length. -/
def Obligations.LoadThenReadGivesTheCodeBack : Prop :=
  ∀ (sym : Sym) (len x : Len) (s : State),
    s.phase ≠ .enc → 1 ≤ len.toNat → len.toNat ≤ s.params.maxLen.toNat →
      ∃ t, execAll [.load sym len, .read sym x] s = .next t ∧
        t.codeValue.toNat = s.codeValue.toNat % 2 ^ len.toNat ∧ (rdLenWord t).toNat = 256 + len.toNat

/-- R35: the code of an entry as a bit sequence has L bits, its i-th bit is C[L-1-i], and read as a most-significant-bit
first integer it equals C (when C < 2^L, as in every entry LOAD writes). -/
def Obligations.CodeBitsReadMostSignificantFirst : Prop :=
  ∀ e : Entry, e.bits.length = e.len.toNat ∧
    (∀ i, i < e.len.toNat → e.bits[i]? = some (e.code.getLsbD (e.len.toNat - 1 - i))) ∧
    (e.code.toNat < 2 ^ e.len.toNat → bitsToNat e.bits = e.code.toNat)

/-- R37: while a message is open CLEAR and LOAD are errors, and no command but SRESET changes the table. -/
def Obligations.TableIsFixedDuringMessage : Prop :=
  ∀ (i : Instr) (s : State), s.phase = .enc → (∀ a b, i ≠ .sreset a b) →
    ∃ t, exec i s = .next t ∧ t.ct = s.ct ∧
      (((∃ a b, i = .clear a b) ∨ ∃ sym len, i = .load sym len) → t = s.raised .state (encode i))

/-! ## The message commands -/

/-- R80: outside ENC, BEGIN (OP = 0x05) opens an empty message, clears the error and keeps the table, the staging registers and
OUT_BUF; in ENC it raises STATE. -/
def Obligations.BeginOpensMessage : Prop :=
  ∀ (a : Sym) (b : Len) (s : State),
    decode (BitVec.ofNat 32 (0x05 + 2 ^ 8 * a.toNat + 2 ^ 16 * b.toNat)) = .ok (.begin a b) ∧
    (s.phase ≠ .enc →
      ∃ t, exec (.begin a b) s = .next t ∧
        t.phase = .enc ∧ t.errCode = .none ∧ t.errCmd = 0 ∧ t.bitCnt = 0 ∧ t.acc = 0 ∧ t.accN = 0 ∧
        t.outPtr = 1 ∧ t.outLen = 0 ∧ t.pad = 0 ∧ openBits t = [] ∧
        t.ct = s.ct ∧ t.outBuf = s.outBuf ∧ SameStaging s t ∧ SameWorld s t) ∧
    (s.phase = .enc → exec (.begin a b) s = .next (s.raised .state (encode (.begin a b))))

/-- R81 with R79: an ENC (OP = 0x06) of a valid entry that fits appends exactly the code's bits to the message bitstring, in order;
it writes the bytes OUT_PTR up to the new OUT_PTR and no other byte, and changes nothing else. The premise `StateInv` rules
out states no run reaches (R41). Without the premises: STATE outside ENC, then NOCODE, then OVERFLOW. -/
def Obligations.EncAppendsTheCode : Prop :=
  ∀ (sym : Sym) (x : Len) (s : State),
    decode (BitVec.ofNat 32 (0x06 + 2 ^ 8 * sym.toNat + 2 ^ 16 * x.toNat)) = .ok (.enc sym x) ∧
    (StateInv s → s.phase = .enc → (s.entry sym).valid = true →
      1 + (s.bitCnt.toNat + (s.entry sym).len.toNat + 7) / 8 ≤ s.params.outCap.toNat →
      ∃ t, exec (.enc sym x) s = .next t ∧
        openBits t = openBits s ++ (s.entry sym).bits ∧
        t.bitCnt.toNat = s.bitCnt.toNat + (s.entry sym).len.toNat ∧
        t.outPtr.toNat = 1 + t.bitCnt.toNat / 8 ∧ t.accN.toNat = t.bitCnt.toNat % 8 ∧
        t.acc.toNat < 2 ^ t.accN.toNat ∧
        (∀ a, s.outPtr.toNat ≤ a → a < t.outPtr.toNat → (Memory.read t.outBuf a).isSome) ∧
        (∀ a, ¬ (s.outPtr.toNat ≤ a ∧ a < t.outPtr.toNat) → Memory.read t.outBuf a = Memory.read s.outBuf a) ∧
        t.outLen = s.outLen ∧ t.pad = s.pad ∧ t.ct = s.ct ∧ SameStatus s t ∧ SameStaging s t ∧ SameWorld s t) ∧
    (s.phase ≠ .enc → exec (.enc sym x) s = .next (s.raised .state (encode (.enc sym x)))) ∧
    (s.phase = .enc → (s.entry sym).valid = false →
      exec (.enc sym x) s = .next (s.raised .noCode (encode (.enc sym x)))) ∧
    (s.phase = .enc → (s.entry sym).valid = true →
      s.params.outCap.toNat < 1 + (s.bitCnt.toNat + (s.entry sym).len.toNat + 7) / 8 →
      exec (.enc sym x) s = .next (s.raised .overflow (encode (.enc sym x))))

/-- R82: FINISH (OP = 0x07) of an open message leaves in OUT_BUF[0..OUT_LEN-1] the packing of its bitstring, header included; it
writes OUT_BUF[0], and OUT_BUF[OUT_PTR] when ACC_N > 0, and no other byte; PAD is the padding count, BITCNT stays, ACC
is emptied, STATE is DONE. Outside ENC it raises STATE. -/
def Obligations.FinishPadsAndCloses : Prop :=
  ∀ (a : Sym) (b : Len) (s : State),
    decode (BitVec.ofNat 32 (0x07 + 2 ^ 8 * a.toNat + 2 ^ 16 * b.toNat)) = .ok (.finish a b) ∧
    (StateInv s → s.phase = .enc →
      ∃ t, exec (.finish a b) s = .next t ∧
        t.phase = .done ∧ t.pad.toNat = (8 - s.bitCnt.toNat % 8) % 8 ∧
        Memory.read t.outBuf 0 = some (t.pad.setWidth 8) ∧
        (0 < s.accN.toNat → Memory.read t.outBuf s.outPtr.toNat = some (s.acc <<< (8 - s.accN.toNat))) ∧
        payload t = pack (openBits s) ∧
        t.outLen.toNat = 1 + (s.bitCnt.toNat + 7) / 8 ∧ t.outPtr = t.outLen ∧
        t.acc = 0 ∧ t.accN = 0 ∧ t.bitCnt = s.bitCnt ∧
        (∀ i, i ≠ 0 → ¬ (0 < s.accN.toNat ∧ i = s.outPtr.toNat) →
          Memory.read t.outBuf i = Memory.read s.outBuf i) ∧
        t.errCode = s.errCode ∧ t.errCmd = s.errCmd ∧ t.ct = s.ct ∧ SameStaging s t ∧ SameWorld s t) ∧
    (s.phase ≠ .enc → exec (.finish a b) s = .next (s.raised .state (encode (.finish a b))))

/-- R84: after FINISH, 0 <= PAD <= 7, (BITCNT + PAD) mod 8 = 0, OUT_LEN - 1 = (BITCNT + PAD) / 8, and the PAD lowest
bits of the last payload byte are 0. -/
def Obligations.PaddingAfterFinish : Prop :=
  ∀ (a : Sym) (b : Len) (s : State), StateInv s → s.phase = .enc →
    ∃ t, exec (.finish a b) s = .next t ∧
      t.pad.toNat ≤ 7 ∧ (t.bitCnt.toNat + t.pad.toNat) % 8 = 0 ∧
      t.outLen.toNat - 1 = (t.bitCnt.toNat + t.pad.toNat) / 8 ∧
      (∀ k, k < t.pad.toNat → (hostByte t (t.outLen.toNat - 1)).getLsbD k = false)

/-- R83, the packing law. From any state, `BEGIN; ENC ...; FINISH` with NOPs and READs interleaved has no error exactly
when BEGIN is legal, every encoded symbol has a valid entry, and the payload fits; and then it leaves DONE, BITCNT the
length of the message bitstring, OUT_LEN one more than its bytes, and the packed payload in OUT_BUF. The codes are those
of the table as it stood at BEGIN. The one premise is R9's range of the parameters. -/
def Obligations.PackingLaw : Prop :=
  ∀ (s : State) (is : List Instr) (a c : Sym) (b d : Len), s.params.Ok → (∀ i ∈ is, inMessage i = true) →
    ∃ t, execAll ([.begin a b] ++ is ++ [.finish c d]) s = .next t ∧
      (t.errCode = .none ↔
        s.phase ≠ .enc ∧ (∀ sym ∈ encodedSyms is, (s.entry sym).valid = true) ∧
        1 + ((messageBits s (encodedSyms is)).length + 7) / 8 ≤ s.params.outCap.toNat) ∧
      (t.errCode = .none →
        t.phase = .done ∧
        t.bitCnt.toNat = (messageBits s (encodedSyms is)).length ∧
        t.outLen.toNat = 1 + ((messageBits s (encodedSyms is)).length + 7) / 8 ∧
        payload t = pack (messageBits s (encodedSyms is)))

/-- R85: from every state that is not ENC, `BEGIN; FINISH` leaves the one-byte payload 0x00, OUT_LEN = 1, PAD = 0,
BITCNT = 0 and DONE. -/
def Obligations.EmptyMessageIsOneZeroByte : Prop :=
  ∀ (s : State) (a c : Sym) (b d : Len), s.phase ≠ .enc →
    ∃ t, execAll [.begin a b, .finish c d] s = .next t ∧
      payload t = [0x00] ∧ Memory.read t.outBuf 0 = some 0x00 ∧ t.outLen = 1 ∧ t.pad = 0 ∧ t.bitCnt = 0 ∧
      t.phase = .done

/-- R86: the host's table for n > 0 copies of one symbol is the code "0"; with it a message of n copies that fits gives
BITCNT = n and the header (8 - n mod 8) mod 8 followed by ceil8(n) zero bytes. -/
def Obligations.SingleSymbolMessage : Prop :=
  ∀ (s : State) (sym : Sym) (n : Nat), s.params.Ok → s.phase ≠ .enc → 0 < n →
    (s.entry sym).valid = true → hostTable (List.replicate n sym) = some [(sym, (s.entry sym).bits)] →
    1 + (n + 7) / 8 ≤ s.params.outCap.toNat →
    (s.entry sym).bits = [false] ∧
    ∃ t, execAll ([.begin 0 0] ++ List.replicate n (.enc sym 0) ++ [.finish 0 0]) s = .next t ∧
      t.bitCnt.toNat = n ∧
      payload t = BitVec.ofNat 8 ((8 - n % 8) % 8) :: List.replicate ((n + 7) / 8) 0x00

/-! ## Errors -/

/-- R102, R105, R106: an illegal word has the cause ILLEGAL, a command the first cause in the order STATE, then BADLEN
(LOAD), or NOCODE, then OVERFLOW (ENC). With a cause, error entry is all that happens: the first error since the last
BEGIN or reset is recorded with its word, a later one is dropped, STATE is ERR. Without a cause nothing is recorded. -/
def Obligations.FailingCommandsOnlyRecordTheFirstCause : Prop :=
  (∀ (w : Word) (s : State), (∀ i : Instr, decode w ≠ .ok i) →
    performWord w s = .next { s with
      phase := .err
      errCode := if s.errCode = .none then .illegal else s.errCode
      errCmd := if s.errCode = .none then w else s.errCmd }) ∧
  ∀ (i : Instr) (s : State),
    (∀ e, causeOf i s = some e →
      exec i s = .next { s with
        phase := .err
        errCode := if s.errCode = .none then e else s.errCode
        errCmd := if s.errCode = .none then encode i else s.errCmd }) ∧
    (causeOf i s = none →
      ∃ t, exec i s = .next t ∧ (t.errCode = s.errCode ∨ t.errCode = .none) ∧
        (t.errCmd = s.errCmd ∨ t.errCmd = 0))

/-- R109, the legality table: a command not legal in the state raises STATE (and changes nothing once an error is
recorded in ERR); a legal one that succeeds enters the state after the arrow, and one that raises does not raise STATE;
an illegal word raises ILLEGAL in every state (and changes nothing in ERR). -/
def Obligations.LegalityTable : Prop :=
  (∀ (i : Instr) (s : State), ∃ t, exec i s = .next t ∧
    (legalIn i s.phase = false → t = s.raised .state (encode i)) ∧
    (legalIn i s.phase = false → s.phase = .err → s.errCode ≠ .none → t = s) ∧
    (legalIn i s.phase = true → causeOf i s = none → t.phase = successPhase i s.phase) ∧
    (legalIn i s.phase = true → s.errCode = .none → t.errCode ≠ .state)) ∧
  (∀ (w : Word) (s : State), (∀ i : Instr, decode w ≠ .ok i) →
    performWord w s = .next (s.raised .illegal w) ∧
    (s.phase = .err → s.errCode ≠ .none → performWord w s = .next s))

/-- R108: of the commands performed in ERR only BEGIN and SRESET leave it: BEGIN clears the error, opens a new message
(every message register as R80 sets it) and keeps the table; SRESET returns every register and the table to their reset
values. NOP, CLEAR, LOAD and READ do the work of R74, R76, R77 and R78, all of it and no more, and leave ERR, ERRCODE and
ERRCMD; a LOAD of an illegal length, being a second error, is dropped. ENC and FINISH change nothing. -/
def Obligations.OnlyBeginAndSresetLeaveErr : Prop :=
  ∀ (i : Instr) (s : State), s.phase = .err → s.errCode ≠ .none →
    ∃ t, exec i s = .next t ∧
      (t.phase ≠ .err ↔ ((∃ a b, i = .begin a b) ∨ ∃ a b, i = .sreset a b)) ∧
      ((∃ a b, i = .begin a b) →
        t.phase = .enc ∧ t.errCode = .none ∧ t.errCmd = 0 ∧ t.bitCnt = 0 ∧ t.acc = 0 ∧ t.accN = 0 ∧
        t.outPtr = 1 ∧ t.outLen = 0 ∧ t.pad = 0 ∧ openBits t = [] ∧
        t.ct = s.ct ∧ t.outBuf = s.outBuf ∧ SameStaging s t ∧ SameWorld s t) ∧
      ((∃ a b, i = .sreset a b) → t = { State.resetWith s.params s.epoch with
        outBuf := s.outBuf, pending := s.pending, received := s.received }) ∧
      (t.phase = .err → t.errCode = s.errCode ∧ t.errCmd = s.errCmd) ∧
      ((∃ a b, i = .nop a b) → t = s) ∧
      ((∃ a b, i = .clear a b) →
        (∀ sym, t.entry sym = ⟨false, 0, 0⟩) ∧ SameMessage s t ∧ SameStatus s t ∧ SameStaging s t ∧ SameWorld s t) ∧
      (∀ sym len, i = .load sym len → 1 ≤ len.toNat → len.toNat ≤ s.params.maxLen.toNat →
        (t.entry sym).valid = true ∧ (t.entry sym).len = len ∧
        (∀ (k : Nat) (h : k < 255), (t.entry sym).code.getLsbD k =
          (decide (k < len.toNat) && (s.codeData[k / 32]'(by omega)).getLsbD (k % 32))) ∧
        (∀ other, other ≠ sym → t.entry other = s.entry other) ∧
        SameMessage s t ∧ SameStatus s t ∧ SameStaging s t ∧ SameWorld s t) ∧
      (∀ sym len, i = .load sym len → (len.toNat = 0 ∨ s.params.maxLen.toNat < len.toNat) → t = s) ∧
      (∀ sym x, i = .read sym x →
        (∀ (k : Fin 8) (j : Nat), j < 32 →
          (t.codeData[k]).getLsbD j = (s.entry sym).code.getLsbD (32 * k.val + j)) ∧
        t.rdLen = (s.entry sym).len ∧ t.rdValid = (s.entry sym).valid ∧
        t.ct = s.ct ∧ SameMessage s t ∧ SameStatus s t ∧ SameWorld s t) ∧
      (((∃ sym x, i = .enc sym x) ∨ ∃ a b, i = .finish a b) → t = s)

/-- What lets a host read STATUS once after FINISH (R127): once an error is recorded, no sequence of commands without
BEGIN and SRESET leaves ERR, changes what is recorded, or changes the message registers or OUT_BUF. -/
def Obligations.ErrorStaysUntilBeginOrSreset : Prop :=
  ∀ (is : List Instr) (s : State), s.phase = .err → s.errCode ≠ .none →
    (∀ i ∈ is, ∀ a b, i ≠ .begin a b ∧ i ≠ .sreset a b) →
    ∃ t, execAll is s = .next t ∧ t.phase = .err ∧ t.errCode = s.errCode ∧ t.errCmd = s.errCmd ∧ SameMessage s t

/-- R127: STATE becomes DONE only when FINISH is performed with a message open. -/
def Obligations.DoneIsEnteredOnlyByFinish : Prop :=
  ∀ s t : State, step s = .next t → t.phase = .done → s.phase ≠ .done →
    s.phase = .enc ∧ ∃ w rest a b, s.pending = .write (s.params.base + 4) 4 w :: rest ∧ decode w = .ok (.finish a b)

/-- R107: a failing command changes no register but STATE, ERRCODE and ERRCMD, no entry and no OUT_BUF byte; an error in
state DONE leaves OUT_LEN, PAD and the finished payload unchanged and readable by the host, though STATE reads ERR. -/
def Obligations.ErrorsArePrecise : Prop :=
  ∀ (w : Word) (s : State), ((∀ i : Instr, decode w ≠ .ok i) ∨ ∃ i, decode w = .ok i ∧ causeOf i s ≠ none) →
    ∃ t, performWord w s = .next t ∧ t.phase = .err ∧
      ({ t with phase := s.phase, errCode := s.errCode, errCmd := s.errCmd } : State) = s ∧
      (s.phase = .done → t.outLen = s.outLen ∧ t.pad = s.pad ∧ payload t = payload s)

/-! ## The host window -/

/-- The register map (R20 to R33): what a 32-bit read of each register returns to the host, the HBP unchanged. -/
def Obligations.RegistersReadAsMapped : Prop :=
  ∀ (s : State) (rest : List HostEvent),
    let reads := fun (off v : Nat) => ∃ x : Word, x.toNat = v ∧
      step { s with pending := .read (s.params.base + off) 4 :: rest } =
        .next { s with pending := rest, received := s.received ++ [x] }
    reads 0x000 0x48425031 ∧ reads 0x004 0 ∧
    reads 0x008 ((match s.phase with | .idle => 0 | .enc => 1 | .done => 2 | .err => 3) +
      16 * (match s.errCode with | .none => 0 | .illegal => 1 | .state => 2 | .badLen => 3 | .noCode => 4 | .overflow => 5)) ∧
    reads 0x00C s.errCmd.toNat ∧
    reads 0x010 (s.bitCnt.toNat % 2 ^ 32) ∧ reads 0x014 (s.bitCnt.toNat / 2 ^ 32) ∧
    reads 0x018 s.outPtr.toNat ∧ reads 0x01C s.outLen.toNat ∧ reads 0x020 s.pad.toNat ∧
    reads 0x024 (s.acc.toNat + 256 * s.accN.toNat) ∧
    reads 0x028 s.params.outCap.toNat ∧ reads 0x02C s.params.maxLen.toNat ∧
    reads 0x030 (s.rdLen.toNat + 256 * s.rdValid.toNat) ∧
    ∀ k : Fin 8, reads (0x040 + 4 * k.val) (s.codeData[k]).toNat

/-- R50: a 32-bit read of a reserved offset or of CMD returns 0; a write to a reserved offset, to a read-only register
or (of an accepted width) to OUT_BUF is ignored. -/
def Obligations.ReservedAndReadOnlyOffsets : Prop :=
  ∀ (s : State) (rest : List HostEvent) (v : Word) (off : Nat),
    let reserved := off % 4 = 0 ∧ ((0x034 ≤ off ∧ off ≤ 0x03C) ∨ (0x060 ≤ off ∧ off ≤ 0xFFC))
    (reserved ∨ off = 0x004 →
      step { s with pending := .read (s.params.base + off) 4 :: rest } =
        .next { s with pending := rest, received := s.received ++ [0] }) ∧
    (reserved ∨ off ∈ [0x000, 0x008, 0x00C, 0x010, 0x014, 0x018, 0x01C, 0x020, 0x024, 0x028, 0x02C, 0x030] →
      step { s with pending := .write (s.params.base + off) 4 v :: rest } = .next { s with pending := rest }) ∧
    (∀ n, n ∈ [1, 2, 4] → off % n = 0 → 0x1000 ≤ off → off + n ≤ 0x1000 + s.params.outCap.toNat →
      step { s with pending := .write (s.params.base + off) n v :: rest } = .next { s with pending := rest })

/-- R49: exactly the aligned 32-bit register accesses and the aligned 1-, 2- and 4-byte OUT_BUF accesses inside the
window are accepted; every other access faults as BadAccess(off, n), and a fault has no next state. -/
def Obligations.BadAccessesFault : Prop :=
  ∀ (s : State) (rest : List HostEvent) (v : Word) (off n : Nat),
    let accepted := (off < 0x1000 ∧ n = 4 ∧ off % 4 = 0) ∨
      (0x1000 ≤ off ∧ (n = 1 ∨ n = 2 ∧ off % 2 = 0 ∨ n = 4 ∧ off % 4 = 0) ∧
        off + n ≤ 0x1000 + s.params.outCap.toNat)
    (accepted →
      (∃ t, step { s with pending := .read (s.params.base + off) n :: rest } = .next t) ∧
      (∃ t, step { s with pending := .write (s.params.base + off) n v :: rest } = .next t)) ∧
    (¬ accepted →
      step { s with pending := .read (s.params.base + off) n :: rest } = .fault (.badAccess off n) ∧
      step { s with pending := .write (s.params.base + off) n v :: rest } = .fault (.badAccess off n))

/-- R47 and R48, for every OUT_BUF read R49 accepts: a 4-byte read at offset 4m returns the four bytes, the lowest
address in bits 7:0, and a 1-byte read at 4m + j returns lane j of it; a 2-byte read at an even offset returns the byte
there in bits 7:0 and the next in bits 15:8; a 1-byte read anywhere returns the byte there. That the reply to a 1- or
2-byte read is a 32-bit word with zeros above is the model's choice (log 12, DESIGN CHOICE). -/
def Obligations.BufferReadsAreLittleEndian : Prop :=
  ∀ (s : State) (rest : List HostEvent),
    (∀ m, 4 * m + 4 ≤ s.params.outCap.toNat →
      ∃ x : Word, step { s with pending := .read (s.params.base + 0x1000 + 4 * m) 4 :: rest } =
          .next { s with pending := rest, received := s.received ++ [x] } ∧
        x.toNat = (hostByte s (4 * m)).toNat + 2 ^ 8 * (hostByte s (4 * m + 1)).toNat +
          2 ^ 16 * (hostByte s (4 * m + 2)).toNat + 2 ^ 24 * (hostByte s (4 * m + 3)).toNat ∧
        ∀ j, j < 4 →
          step { s with pending := .read (s.params.base + 0x1000 + (4 * m + j)) 1 :: rest } =
            .next { s with pending := rest, received := s.received ++ [(x.extractLsb' (8 * j) 8).setWidth 32] }) ∧
    (∀ m, 2 * m + 2 ≤ s.params.outCap.toNat →
      ∃ x : Word, step { s with pending := .read (s.params.base + 0x1000 + 2 * m) 2 :: rest } =
          .next { s with pending := rest, received := s.received ++ [x] } ∧
        x.toNat = (hostByte s (2 * m)).toNat + 2 ^ 8 * (hostByte s (2 * m + 1)).toNat) ∧
    (∀ i, i < s.params.outCap.toNat →
      step { s with pending := .read (s.params.base + 0x1000 + i) 1 :: rest } =
        .next { s with pending := rest, received := s.received ++ [(hostByte s i).setWidth 32] })

/-- R39: in DONE the host reads the payload, byte by byte, and in ENC the payload bytes written so far, as the HBP
stored them. That the reply to a 1-byte read is a 32-bit word with zeros above is the model's choice (log 12, DESIGN
CHOICE). -/
def Obligations.HostReadsTheDefinedBytes : Prop :=
  ∀ (s : State) (rest : List HostEvent) (i : Nat), StateInv s →
    ((s.phase = .done ∧ i < s.outLen.toNat) ∨ (s.phase = .enc ∧ 1 ≤ i ∧ i < s.outPtr.toNat)) →
    ∃ b, Memory.read s.outBuf i = some b ∧
      step { s with pending := .read (s.params.base + 0x1000 + i) 1 :: rest } =
        .next { s with pending := rest, received := s.received ++ [b.setWidth 32] }

/-- R33, R125: a host write of CODE_DATA[k] is accepted in every state, sets that word, hence bits 32k+31 to 32k of the
256-bit value, and changes nothing else. -/
def Obligations.CodeDataWriteSetsOneWord : Prop :=
  ∀ (s : State) (rest : List HostEvent) (v : Word) (k : Fin 8),
    ∃ t, step { s with pending := .write (s.params.base + 0x040 + 4 * k.val) 4 v :: rest } = .next t ∧
      t.codeData[k] = v ∧ (∀ j : Fin 8, j ≠ k → t.codeData[j] = s.codeData[j]) ∧
      t.codeValue.extractLsb' (32 * k.val) 32 = v ∧
      ({ t with codeData := s.codeData } : State) = { s with pending := rest }

/-- R52: OUT_BUF bytes change only when the host writes an ENC or a FINISH word to CMD (or resets the block), and then
only at offsets below OUT_CAP; and the header byte only by FINISH (R126). -/
def Obligations.OutBufIsWrittenOnlyByEncAndFinish : Prop :=
  ∀ s t : State, StateInv s → step s = .next t → ∀ a, Memory.read t.outBuf a ≠ Memory.read s.outBuf a →
    (∃ rest, s.pending = .hwReset :: rest) ∨
    (∃ w rest, s.pending = .write (s.params.base + 4) 4 w :: rest ∧ a < s.params.outCap.toNat ∧
      ((∃ sym x, decode w = .ok (.enc sym x) ∧ 1 ≤ a) ∨ ∃ c d, decode w = .ok (.finish c d)))

/-! ## The invariant -/

/-- R41 and R42: the invariant holds after hardware reset, for all parameters R9 allows, and at `State.reset`, whose
parameters are the model's choice (log 1). The canonical form of OUT_BUF in it is the model's own (log 6). -/
def Obligations.InvariantHoldsAtReset : Prop :=
  (∀ (p : Params) (epoch : Nat), p.Ok → StateInv (State.resetWith p epoch)) ∧ StateInv State.reset

/-- From every state that meets `StateInv`, a step (a command, any other host access, a hardware reset) gives a state that
meets it. `StateInv` is R41's clauses, with R9's parameter ranges, the message registers 0 in IDLE (R42), OUT_LEN and PAD
0 in an open message (R80), the bytes the host may rely on written (R39), every byte written below OUT_CAP (R38, R52), and
OUT_BUF in the model's own sorted form (log 6, DESIGN CHOICE). -/
def Obligations.InvariantKeptByStep : Prop :=
  ∀ s t : State, StateInv s → step s = .next t → StateInv t

/-! ## The reference functions and the round trip -/

/-- R96 undoes R83: unpacking a packed bit sequence gives it back. -/
def Obligations.UnpackInvertsPack : Prop :=
  ∀ bits : Bits, unpack (pack bits) = (bits, .ok)

/-- R97 with R93: with a well-formed table, decoding the concatenated codes of a symbol sequence gives it back. -/
def Obligations.DecodeInvertsCoding : Prop :=
  ∀ (maxLen : Nat) (t : CodeTable) (msg : List (Sym × Bits)), TableWellFormed maxLen t → (∀ e ∈ msg, e ∈ t) →
    decodeBits (msg.flatMap Prod.snd) t = (msg.map Prod.fst, .ok)

/-- R98, the round trip: with a well-formed table loaded and every symbol of the message in it, a message that fits
unpacks to its bitstring and decodes to its symbols. -/
def Obligations.RoundTrip : Prop :=
  ∀ (s : State) (syms : List Sym), s.params.Ok → s.phase ≠ .enc →
    TableWellFormed s.params.maxLen.toNat (tableOf s) → (∀ c ∈ syms, (s.entry c).valid = true) →
    1 + ((messageBits s syms).length + 7) / 8 ≤ s.params.outCap.toNat →
    ∃ t, execAll ([.begin 0 0] ++ syms.map (fun c => .enc c 0) ++ [.finish 0 0]) s = .next t ∧
      unpack (payload t) = (messageBits s syms, .ok) ∧
      decodeBits (messageBits s syms) (tableOf s) = (syms, .ok)

/-- R89: FreqCount covers exactly the symbols present, each with its number of occurrences, at least 1; the counts sum
to the length. -/
def Obligations.FreqCountCounts : Prop :=
  ∀ b : List Sym,
    ((freqCount b).map Prod.fst).Nodup ∧
    (∀ sym n, (sym, n) ∈ freqCount b ↔ (sym ∈ b ∧ n = b.count sym)) ∧
    (∀ e ∈ freqCount b, 1 ≤ e.2) ∧
    ((freqCount b).map Prod.snd).sum = b.length ∧
    (b = [] → freqCount b = [])

/-- R93 with R10: the table the reference functions make for a non-empty byte sequence has an entry for exactly its
symbols and is well formed for MAX_LEN = 255. -/
def Obligations.HuffmanTableIsWellFormed : Prop :=
  ∀ b : List Sym, b ≠ [] →
    ∃ t, hostTable b = some t ∧ TableWellFormed 255 t ∧ ∀ sym, sym ∈ t.map Prod.fst ↔ sym ∈ b

/-- R95: the tree, and so the codes, depend on the frequency map alone, not on the order it is held in. -/
def Obligations.CanonicalRebuild : Prop :=
  ∀ f g : FreqMap, f.Perm g → (f.map Prod.fst).Nodup →
    buildTree f = buildTree g ∧ (buildTree f).map genCodes = (buildTree g).map genCodes

/-- R66 with R73: the accesses of `LDCODE sym, code` load the code into the symbol's entry and into no other, whatever
CODE_DATA held. -/
def Obligations.LdCodeLoadsTheCode : Prop :=
  ∀ (s : State) (rest : List HostEvent) (sym : Sym) (code : Bits),
    s.phase ≠ .enc → 1 ≤ code.length → code.length ≤ s.params.maxLen.toNat →
    let prog := assemble s.params 0 [.ldCode sym code]
    ∃ t, Host.Core.run Sys2Proof.core prog.length { s with pending := prog ++ rest } = .next t ∧
      (t.entry sym).valid = true ∧ (t.entry sym).bits = code ∧
      (∀ other, other ≠ sym → t.entry other = s.entry other) ∧
      SameMessage s t ∧ SameStatus s t ∧ t.pending = rest

/-- R73, R122: the accesses of `LDTABLE T` leave exactly the table T loaded, whatever was loaded before. -/
def Obligations.LdTableLoadsTheTable : Prop :=
  ∀ (s : State) (rest : List HostEvent) (tab : CodeTable),
    s.phase ≠ .enc → TableWellFormed s.params.maxLen.toNat tab →
    let prog := assemble s.params 0 [.ldTable tab]
    ∃ t, Host.Core.run Sys2Proof.core prog.length { s with pending := prog ++ rest } = .next t ∧
      (∀ e, e ∈ tableOf t ↔ e ∈ tab) ∧ SameMessage s t ∧ SameStatus s t ∧ t.pending = rest

/-- R88 with R98: the whole host pipeline on the machine. After hardware reset, with MAX_LEN = 255, the host computes the
table of a non-empty byte sequence, runs LDTABLE and PACK, and, if the message fits, the payload unpacks and decodes
(with the same table) to the byte sequence. -/
def Obligations.HostPipelineRoundTrip : Prop :=
  ∀ (p : Params) (epoch : Nat) (b : List Sym) (tab : CodeTable), p.Ok → p.maxLen = 255 → hostTable b = some tab →
    1 + ((b.flatMap (fun c => (tab.lookup c).getD [])).length + 7) / 8 ≤ p.outCap.toNat →
    let prog := assemble p 0 [.ldTable tab, .pack b]
    ∃ t bits, Host.Core.run Sys2Proof.core prog.length { State.resetWith p epoch with pending := prog } = .next t ∧
      t.phase = .done ∧ unpack (payload t) = (bits, .ok) ∧ decodeBits bits tab = (b, .ok)
end

