-- ==== Sys2Proof/Laws/Decode.lean ====
section
/-! SUPPORT. The fields of a packed word, and the word packed from its own fields. -/

namespace Sys2Proof

section packWord
variable (len : Len) (sym : Sym) (op : BitVec 8)

@[simp] theorem opField_packWord : opField (packWord len sym op) = op := by
  apply BitVec.eq_of_toNat_eq
  simp only [opField, packWord, BitVec.extractLsb'_toNat, BitVec.toNat_ofNat, Nat.shiftRight_eq_div_pow]
  omega

@[simp] theorem symField_packWord : symField (packWord len sym op) = sym := by
  apply BitVec.eq_of_toNat_eq
  simp only [symField, packWord, BitVec.extractLsb'_toNat, BitVec.toNat_ofNat, Nat.shiftRight_eq_div_pow]
  omega

@[simp] theorem lenField_packWord : lenField (packWord len sym op) = len := by
  apply BitVec.eq_of_toNat_eq
  simp only [lenField, packWord, BitVec.extractLsb'_toNat, BitVec.toNat_ofNat, Nat.shiftRight_eq_div_pow]
  omega

@[simp] theorem rsvField_packWord : rsvField (packWord len sym op) = 0 := by
  apply BitVec.eq_of_toNat_eq
  have h1 := len.isLt
  have h2 := sym.isLt
  have h3 := op.isLt
  simp only [rsvField, packWord, BitVec.extractLsb'_toNat, BitVec.toNat_ofNat, Nat.shiftRight_eq_div_pow]
  simp
  omega
end packWord

/-- A word whose RSV is 0 is packed from its fields: no bit is lost. -/
theorem packWord_fields (w : Word) (h : rsvField w = 0) :
    packWord (lenField w) (symField w) (opField w) = w := by
  have h' := congrArg BitVec.toNat h
  have hw := w.isLt
  apply BitVec.eq_of_toNat_eq
  simp only [rsvField, lenField, symField, opField, packWord, BitVec.extractLsb'_toNat, BitVec.toNat_ofNat,
    Nat.shiftRight_eq_div_pow] at h' ⊢
  simp at h' ⊢
  omega

end Sys2Proof
end

