-- ==== Sys2Proof/Laws/Memory.lean ====
section
/-! SUPPORT. OUT_BUF as a memory: reading after writing, and the canonical form. -/

namespace Sys2Proof.Machine

@[simp] theorem Memory.read_nil (i : Nat) : Memory.read [] i = none := rfl

@[simp] theorem Memory.read_cons (c : Host.Cell) (m : Memory) (i : Nat) :
    Memory.read (c :: m) i = if c.1 = i then some c.2 else Memory.read m i := rfl

/-- A read gives the byte just written there, and elsewhere what it gave before. -/
@[simp] theorem Memory.read_write (m : Memory) (i j : Nat) (v : Byte) :
    Memory.read (Memory.write m i v) j = if i = j then some v else Memory.read m j := by
  induction m with
  | nil => simp [Memory.write]
  | cons c m ih =>
    obtain ⟨a, b⟩ := c
    by_cases hlt : a < i
    · simp only [Memory.write, hlt, if_true, Memory.read_cons, ih]
      split_ifs <;> first | rfl | omega
    · by_cases heq : a = i
      · subst heq
        simp only [Memory.write, hlt, if_false, if_true, Memory.read_cons]
        split_ifs <;> rfl
      · simp only [Memory.write, hlt, heq, if_false, Memory.read_cons]

/-- Every cell of a written memory is the new one or an old one. -/
theorem Memory.mem_write {m : Memory} {i : Nat} {v : Byte} {c : Host.Cell}
    (h : c ∈ Memory.write m i v) : c = (i, v) ∨ c ∈ m := by
  induction m with
  | nil => simpa [Memory.write] using h
  | cons d m ih =>
    obtain ⟨a, b⟩ := d
    simp only [Memory.write] at h
    split_ifs at h
    · rcases List.mem_cons.mp h with h | h
      · exact .inr (h ▸ List.mem_cons_self)
      · exact (ih h).imp_right (List.mem_cons_of_mem _)
    · rcases List.mem_cons.mp h with h | h
      · exact .inl h
      · exact .inr (List.mem_cons_of_mem _ h)
    · exact (List.mem_cons.mp h)

/-- A byte that can be read is a cell of the memory. -/
theorem Memory.mem_of_read {m : Memory} {a : Nat} {b : Byte} (h : Memory.read m a = some b) : (a, b) ∈ m := by
  induction m with
  | nil => cases h
  | cons d m ih =>
    rw [Memory.read_cons] at h
    split at h
    · cases h
      subst_vars
      exact List.mem_cons_self
    · exact List.mem_cons_of_mem _ (ih h)

/-- The offset of a cell can be read. -/
theorem Memory.read_of_mem {m : Memory} {c : Host.Cell} (hc : c ∈ m) : (Memory.read m c.1).isSome := by
  induction m with
  | nil => cases hc
  | cons d m ih =>
    rw [Memory.read_cons]
    split
    · rfl
    · rcases List.mem_cons.mp hc with rfl | hc
      · contradiction
      · exact ih hc

theorem Memory.wf_nil : Memory.wf [] := List.Pairwise.nil

/-- A write keeps the canonical form. -/
theorem Memory.wf_write {m : Memory} (i : Nat) (v : Byte) (h : Memory.wf m) :
    Memory.wf (Memory.write m i v) := by
  induction m with
  | nil => simp [Memory.write, Memory.wf]
  | cons d m ih =>
    obtain ⟨a, b⟩ := d
    obtain ⟨hd, hm⟩ := List.pairwise_cons.mp h
    simp only [Memory.write]
    split_ifs with hlt heq
    · refine List.pairwise_cons.mpr ⟨fun c hc => ?_, ih hm⟩
      rcases Memory.mem_write hc with rfl | hc
      · exact hlt
      · exact hd c hc
    · subst heq
      exact List.pairwise_cons.mpr ⟨hd, hm⟩
    · refine List.pairwise_cons.mpr ⟨fun c hc => ?_, h⟩
      rcases List.mem_cons.mp hc with rfl | hc
      · exact Nat.lt_of_le_of_ne (Nat.le_of_not_lt hlt) (Ne.symm heq)
      · exact Nat.lt_trans (Nat.lt_of_le_of_ne (Nat.le_of_not_lt hlt) (Ne.symm heq)) (hd c hc)

end Sys2Proof.Machine
end

