-- ==== Sys2Proof/Laws/State.lean ====
section
/-! SUPPORT. One lemma per field per shared update of State, and the code table read after a write. -/

namespace Sys2Proof.Machine

section resetWith
variable (p : Params) (k : Nat)
@[simp] theorem resetWith_params : (State.resetWith p k).params = p := rfl
@[simp] theorem resetWith_phase : (State.resetWith p k).phase = .idle := rfl
@[simp] theorem resetWith_errCode : (State.resetWith p k).errCode = .none := rfl
@[simp] theorem resetWith_errCmd : (State.resetWith p k).errCmd = 0 := rfl
@[simp] theorem resetWith_bitCnt : (State.resetWith p k).bitCnt = 0 := rfl
@[simp] theorem resetWith_outPtr : (State.resetWith p k).outPtr = 0 := rfl
@[simp] theorem resetWith_outLen : (State.resetWith p k).outLen = 0 := rfl
@[simp] theorem resetWith_pad : (State.resetWith p k).pad = 0 := rfl
@[simp] theorem resetWith_acc : (State.resetWith p k).acc = 0 := rfl
@[simp] theorem resetWith_accN : (State.resetWith p k).accN = 0 := rfl
@[simp] theorem resetWith_rdLen : (State.resetWith p k).rdLen = 0 := rfl
@[simp] theorem resetWith_rdValid : (State.resetWith p k).rdValid = false := rfl
@[simp] theorem resetWith_outBuf : (State.resetWith p k).outBuf = [] := rfl
@[simp] theorem resetWith_epoch : (State.resetWith p k).epoch = k := rfl
@[simp] theorem resetWith_pending : (State.resetWith p k).pending = [] := rfl
@[simp] theorem resetWith_received : (State.resetWith p k).received = [] := rfl
@[simp] theorem resetWith_codeData (j : Fin 8) : (State.resetWith p k).codeData[j] = 0 := by
  simp [State.resetWith]
@[simp] theorem resetWith_entry (c : Sym) : (State.resetWith p k).entry c = Entry.invalid := by
  simp [State.resetWith, State.entry]
end resetWith

section memWrite
variable (i : Word) (v : Byte) (s : State)
@[simp] theorem memWrite_params : (memWrite i v s).params = s.params := rfl
@[simp] theorem memWrite_phase : (memWrite i v s).phase = s.phase := rfl
@[simp] theorem memWrite_errCode : (memWrite i v s).errCode = s.errCode := rfl
@[simp] theorem memWrite_errCmd : (memWrite i v s).errCmd = s.errCmd := rfl
@[simp] theorem memWrite_bitCnt : (memWrite i v s).bitCnt = s.bitCnt := rfl
@[simp] theorem memWrite_outPtr : (memWrite i v s).outPtr = s.outPtr := rfl
@[simp] theorem memWrite_outLen : (memWrite i v s).outLen = s.outLen := rfl
@[simp] theorem memWrite_pad : (memWrite i v s).pad = s.pad := rfl
@[simp] theorem memWrite_acc : (memWrite i v s).acc = s.acc := rfl
@[simp] theorem memWrite_accN : (memWrite i v s).accN = s.accN := rfl
@[simp] theorem memWrite_rdLen : (memWrite i v s).rdLen = s.rdLen := rfl
@[simp] theorem memWrite_rdValid : (memWrite i v s).rdValid = s.rdValid := rfl
@[simp] theorem memWrite_codeData : (memWrite i v s).codeData = s.codeData := rfl
@[simp] theorem memWrite_ct : (memWrite i v s).ct = s.ct := rfl
@[simp] theorem memWrite_outBuf : (memWrite i v s).outBuf = Memory.write s.outBuf i.toNat v := rfl
@[simp] theorem memWrite_epoch : (memWrite i v s).epoch = s.epoch := rfl
@[simp] theorem memWrite_pending : (memWrite i v s).pending = s.pending := rfl
@[simp] theorem memWrite_received : (memWrite i v s).received = s.received := rfl
end memWrite

section table
variable (c d : Sym) (e : Entry) (s : State)
@[simp] theorem setEntry_params : (setEntry c e s).params = s.params := rfl
@[simp] theorem setEntry_phase : (setEntry c e s).phase = s.phase := rfl
@[simp] theorem setEntry_outBuf : (setEntry c e s).outBuf = s.outBuf := rfl

/-- An entry reads as just written, every other entry as before. -/
@[simp] theorem entry_setEntry : (setEntry c e s).entry d = if c = d then e else s.entry d := by
  simp only [setEntry, State.entry, Vector.getElem_set, BitVec.toNat_inj]

@[simp] theorem invalidateTable_params : (invalidateTable s).params = s.params := rfl
@[simp] theorem invalidateTable_phase : (invalidateTable s).phase = s.phase := rfl
@[simp] theorem invalidateTable_outBuf : (invalidateTable s).outBuf = s.outBuf := rfl

@[simp] theorem entry_invalidateTable : (invalidateTable s).entry d = Entry.invalid := by
  simp [invalidateTable, State.entry]

/-- Entries depend on the table alone. -/
theorem entry_congr {s t : State} (h : t.ct = s.ct) (d : Sym) : t.entry d = s.entry d := by
  simp only [State.entry, h]
end table

section raised
variable (e : ErrCode) (w : Word) (s : State)
@[simp] theorem raised_params : (s.raised e w).params = s.params := rfl
@[simp] theorem raised_phase : (s.raised e w).phase = .err := rfl
@[simp] theorem raised_errCode :
    (s.raised e w).errCode = if s.errCode = .none then e else s.errCode := rfl
@[simp] theorem raised_errCmd :
    (s.raised e w).errCmd = if s.errCode = .none then w else s.errCmd := rfl
@[simp] theorem raised_bitCnt : (s.raised e w).bitCnt = s.bitCnt := rfl
@[simp] theorem raised_outPtr : (s.raised e w).outPtr = s.outPtr := rfl
@[simp] theorem raised_outLen : (s.raised e w).outLen = s.outLen := rfl
@[simp] theorem raised_pad : (s.raised e w).pad = s.pad := rfl
@[simp] theorem raised_acc : (s.raised e w).acc = s.acc := rfl
@[simp] theorem raised_accN : (s.raised e w).accN = s.accN := rfl
@[simp] theorem raised_rdLen : (s.raised e w).rdLen = s.rdLen := rfl
@[simp] theorem raised_rdValid : (s.raised e w).rdValid = s.rdValid := rfl
@[simp] theorem raised_codeData : (s.raised e w).codeData = s.codeData := rfl
@[simp] theorem raised_ct : (s.raised e w).ct = s.ct := rfl
@[simp] theorem raised_outBuf : (s.raised e w).outBuf = s.outBuf := rfl
@[simp] theorem raised_epoch : (s.raised e w).epoch = s.epoch := rfl
@[simp] theorem raised_pending : (s.raised e w).pending = s.pending := rfl
@[simp] theorem raised_received : (s.raised e w).received = s.received := rfl

/-- An error in ERR, with the first error recorded, changes nothing (R106). -/
theorem raised_of_recorded (hp : s.phase = .err) (he : s.errCode ≠ .none) : s.raised e w = s := by
  cases s
  simp_all [State.raised]
end raised

end Sys2Proof.Machine
end

