-- ==== Sys2Proof/Laws/Stream.lean ====
section
/-! SUPPORT. What appending bits does: it never touches anything but the message registers and OUT_BUF, and from an open
message with room it appends exactly those bits (R79, R81). -/

namespace Sys2Proof.Machine

open Sys2Proof.Reference (byteBits)

/-- Appending leaves everything but BITCNT, OUT_PTR, ACC, ACC_N and OUT_BUF alone. -/
theorem appendBit_frame (s : State) (b : Bool) :
    (appendBit s b).outLen = s.outLen ∧ (appendBit s b).pad = s.pad ∧ (appendBit s b).ct = s.ct ∧
      SameStatus s (appendBit s b) ∧ SameStaging s (appendBit s b) ∧ SameWorld s (appendBit s b) := by
  unfold appendBit
  dsimp only
  split <;> exact ⟨rfl, rfl, rfl, ⟨rfl, rfl, rfl⟩, ⟨rfl, rfl, rfl⟩, ⟨rfl, rfl, rfl, rfl⟩⟩

theorem appendBits_nil (s : State) : appendBits [] s = s := rfl

theorem appendBits_cons (b : Bool) (bs : Bits) (s : State) :
    appendBits (b :: bs) s = appendBits bs (appendBit s b) := rfl

theorem appendBits_frame (bs : Bits) (s : State) :
    (appendBits bs s).outLen = s.outLen ∧ (appendBits bs s).pad = s.pad ∧ (appendBits bs s).ct = s.ct ∧
      SameStatus s (appendBits bs s) ∧ SameStaging s (appendBits bs s) ∧ SameWorld s (appendBits bs s) := by
  induction bs generalizing s with
  | nil => exact ⟨rfl, rfl, rfl, ⟨rfl, rfl, rfl⟩, ⟨rfl, rfl, rfl⟩, ⟨rfl, rfl, rfl, rfl⟩⟩
  | cons b bs ih =>
    obtain ⟨h1, h2, h3, h4, h5, h6⟩ := appendBit_frame s b
    obtain ⟨g1, g2, g3, g4, g5, g6⟩ := ih (appendBit s b)
    exact ⟨g1.trans h1, g2.trans h2, g3.trans h3,
      ⟨g4.1.trans h4.1, g4.2.trans h4.2, g4.3.trans h4.3⟩,
      ⟨g5.1.trans h5.1, g5.2.trans h5.2, g5.3.trans h5.3⟩,
      ⟨g6.1.trans h6.1, g6.2.trans h6.2, g6.3.trans h6.3, g6.4.trans h6.4⟩⟩

@[simp] theorem length_lowBits (n : Nat) (b : Byte) : (lowBits n b).length = n := by simp [lowBits]

theorem byteBits_eq_lowBits (b : Byte) : byteBits b = lowBits 8 b := rfl

/-- One more bit at the bottom of the accumulator. -/
theorem lowBits_succ (n : Nat) (acc : Byte) (b : Bool) (h : n < 8) :
    lowBits (n + 1) ((acc <<< 1) ||| (BitVec.ofBool b).setWidth 8) = lowBits n acc ++ [b] := by
  have hbit : ∀ i, i < n →
      ((acc <<< 1) ||| (BitVec.ofBool b).setWidth 8).getLsbD (i + 1) = acc.getLsbD i := by
    intro i hi
    have h8 : i + 1 < 8 := by omega
    simp [h8]
    rw [BitVec.getLsbD_eq_getElem (by omega)]
  have h0 : ((acc <<< 1) ||| (BitVec.ofBool b).setWidth 8).getLsbD 0 = b := by
    cases b <;> simp
  simp only [lowBits, List.range_succ_eq_map, List.reverse_cons, List.map_append, List.map_cons, List.map_nil, h0]
  congr 1
  rw [← List.map_reverse, List.map_map]
  exact List.map_congr_left fun i hi => hbit i (by simpa using hi)

/-- Bytes below an offset do not change when that offset is written. -/
theorem flatMap_storedByte_congr {s t : State} (n : Nat)
    (h : ∀ k, k < n → storedByte t (1 + k) = storedByte s (1 + k)) :
    (List.range n).flatMap (fun k => byteBits (storedByte t (1 + k))) =
      (List.range n).flatMap (fun k => byteBits (storedByte s (1 + k))) := by
  rw [List.flatMap_def, List.flatMap_def]
  congr 1
  exact List.map_congr_left fun k hk => by rw [h k (List.mem_range.mp hk)]

/-- The spec lemma of `AppendBit`: from an open message with room for one more bit it appends that bit, keeps the
message open, and writes no byte but the one at OUT_PTR. -/
theorem appendBit_open {s : State} (b : Bool) (h : OpenShape s)
    (room : 1 + ceil8 (s.bitCnt.toNat + 1) ≤ s.params.outCap.toNat) :
    OpenShape (appendBit s b) ∧ (appendBit s b).bitCnt.toNat = s.bitCnt.toNat + 1 ∧
      openBits (appendBit s b) = openBits s ++ [b] ∧
      (∀ a, a ≠ s.outPtr.toNat → Memory.read (appendBit s b).outBuf a = Memory.read s.outBuf a) := by
  obtain ⟨hN, hP, hA, hF, hL, hPad, hW⟩ := h
  have hcap := s.params.outCap.isLt
  have hN8 := s.accN.isLt
  unfold ceil8 at room hF
  have hcnt : (s.bitCnt + 1).toNat = s.bitCnt.toNat + 1 := by
    rw [BitVec.toNat_add]
    exact Nat.mod_eq_of_lt (by simp; omega)
  by_cases h8 : s.accN.toNat + 1 = 8
  · have hptr : (s.outPtr + 1).toNat = s.outPtr.toNat + 1 := by
      rw [BitVec.toNat_add]
      exact Nat.mod_eq_of_lt (by simp; omega)
    simp only [appendBit, h8, if_true]
    refine ⟨⟨?_, ?_, ?_, ?_, hL, hPad, ?_⟩, hcnt, ?_, ?_⟩
    · simp; omega
    · simp only [hptr, hcnt]; omega
    · simp
    · simp only [hcnt, memWrite_params, ceil8]; omega
    · intro i hi hlt
      simp only [hptr] at hlt
      simp only [memWrite_outBuf, Memory.read_write]
      split_ifs with he
      · rfl
      · exact hW i hi (by omega)
    · have e : s.outPtr.toNat - 1 + 1 = s.outPtr.toNat := by omega
      simp only [openBits, hptr, Nat.add_sub_cancel]
      conv_lhs => rw [← e]
      rw [List.range_succ, List.flatMap_append,
        flatMap_storedByte_congr (s := s) (s.outPtr.toNat - 1) (fun k hk => by
          simp only [storedByte, memWrite_outBuf, Memory.read_write]
          rw [if_neg (by omega)])]
      have e2 : 1 + (s.outPtr.toNat - 1) = s.outPtr.toNat := by omega
      have hn : s.accN.toNat = 7 := by omega
      simp [storedByte, e2, byteBits_eq_lowBits, hn]
      rw [lowBits_succ 7 _ _ (by omega)]
      simp [lowBits]
    · intro a ha
      simp only [memWrite_outBuf, Memory.read_write]
      rw [if_neg (fun hh => ha hh.symm)]
  · have hn : s.accN.toNat + 1 < 8 := by omega
    have hnn : (BitVec.ofNat 3 (s.accN.toNat + 1)).toNat = s.accN.toNat + 1 := by
      rw [BitVec.toNat_ofNat]
      exact Nat.mod_eq_of_lt (by omega)
    simp only [appendBit, h8, if_false]
    refine ⟨⟨?_, ?_, ?_, ?_, hL, hPad, hW⟩, hcnt, ?_, fun _ _ => trivial⟩
    · simp only [hnn, hcnt]; omega
    · simp only [hcnt]; omega
    · simp only [hnn]
      have h2 : s.acc.toNat < 2 ^ 7 := Nat.lt_of_lt_of_le hA (Nat.pow_le_pow_right (by omega) (by omega))
      have hle : ((s.acc <<< 1) ||| (BitVec.ofBool b).setWidth 8).toNat < 2 ^ (s.accN.toNat + 1) := by
        rw [BitVec.toNat_or]
        apply Nat.or_lt_two_pow
        · rw [BitVec.toNat_shiftLeft, Nat.shiftLeft_eq, Nat.mod_eq_of_lt (by omega), Nat.pow_succ]
          omega
        · have : ((BitVec.ofBool b).setWidth 8).toNat ≤ 1 := by cases b <;> simp
          have h3 : 2 ≤ 2 ^ (s.accN.toNat + 1) := by
            calc 2 = 2 ^ 1 := rfl
              _ ≤ _ := Nat.pow_le_pow_right (by omega) (by omega)
          omega
      exact hle
    · simp only [hcnt, ceil8]; omega
    · simp only [openBits, hnn]
      rw [lowBits_succ _ _ _ (by omega), List.append_assoc]
      rfl

/-- The spec lemma of ENC's loop: from an open message with room for the bits it appends them in order, keeps the message
open, and writes no byte outside OUT_PTR up to the new OUT_PTR. -/
theorem appendBits_open (bs : Bits) {s : State} (h : OpenShape s)
    (room : 1 + ceil8 (s.bitCnt.toNat + bs.length) ≤ s.params.outCap.toNat) :
    OpenShape (appendBits bs s) ∧ (appendBits bs s).bitCnt.toNat = s.bitCnt.toNat + bs.length ∧
      openBits (appendBits bs s) = openBits s ++ bs ∧
      (∀ a, ¬ (s.outPtr.toNat ≤ a ∧ a < (appendBits bs s).outPtr.toNat) →
        Memory.read (appendBits bs s).outBuf a = Memory.read s.outBuf a) := by
  induction bs generalizing s with
  | nil => exact ⟨h, rfl, (List.append_nil _).symm, fun _ _ => rfl⟩
  | cons b bs ih =>
    unfold ceil8 at room
    simp only [List.length_cons] at room
    obtain ⟨h1, c1, o1, m1⟩ := appendBit_open b h (by unfold ceil8; omega)
    have hp : (appendBit s b).params = s.params := (appendBit_frame s b).2.2.2.2.2.params
    obtain ⟨h2, c2, o2, m2⟩ := ih h1 (by unfold ceil8; rw [hp, c1]; omega)
    rw [appendBits_cons]
    refine ⟨h2, by rw [c2, c1, List.length_cons]; omega, by rw [o2, o1, List.append_assoc]; rfl, fun a ha => ?_⟩
    have hs := h.outPtr
    have hs1 := h1.outPtr
    have hs2 := h2.outPtr
    rw [m2 a (by omega)]
    by_cases hb : a = s.outPtr.toNat
    · -- the first bit completed no byte there, or the byte lies below the new OUT_PTR
      subst hb
      have h78 : s.accN.toNat + 1 ≠ 8 := by
        have := h.accN
        omega
      simp only [appendBit, h78, if_false]
    · exact m1 a hb

theorem flushAcc_of_zero {s : State} (h : s.accN = 0) : flushAcc s = s := if_pos h

theorem flushAcc_of_pos {s : State} (h : s.accN ≠ 0) :
    flushAcc s = { memWrite s.outPtr (s.acc <<< (8 - s.accN.toNat)) s with outPtr := s.outPtr + 1 } := if_neg h

/-- The last byte of a message lands at OUT_PTR, if there is one, and no other byte changes (R82). -/
theorem flushAcc_read (s : State) (a : Nat) :
    Memory.read (flushAcc s).outBuf a =
      if s.accN ≠ 0 ∧ s.outPtr.toNat = a then some (s.acc <<< (8 - s.accN.toNat)) else Memory.read s.outBuf a := by
  by_cases h : s.accN = 0#3
  · rw [flushAcc_of_zero h]
    simp [h]
  · rw [flushAcc_of_pos h]
    simp [h]

/-- FINISH leaves BITCNT, what is recorded of errors, the table, the staging registers and the world alone. -/
theorem finishMessage_frame (s : State) :
    (finishMessage s).bitCnt = s.bitCnt ∧ (finishMessage s).errCode = s.errCode ∧
      (finishMessage s).errCmd = s.errCmd ∧ (finishMessage s).ct = s.ct ∧ SameStaging s (finishMessage s) ∧
      SameWorld s (finishMessage s) := by
  simp only [finishMessage, flushAcc]
  split <;> exact ⟨rfl, rfl, rfl, rfl, ⟨rfl, rfl, rfl⟩, ⟨rfl, rfl, rfl, rfl⟩⟩

/-- The padding count is a number of 3 bits (R28). -/
theorem padCount_lt (n : Nat) : padCount n < 8 := Nat.mod_lt _ (by omega)

/-- FINISH writes OUT_BUF[0], and OUT_BUF[OUT_PTR] when ACC_N > 0, and no other byte (R82). -/
theorem finishMessage_read (s : State) (a : Nat) :
    Memory.read (finishMessage s).outBuf a =
      if a = 0 then some ((BitVec.ofNat 3 (padCount s.bitCnt.toNat)).setWidth 8)
      else if s.accN ≠ 0 ∧ a = s.outPtr.toNat then some (s.acc <<< (8 - s.accN.toNat))
      else Memory.read s.outBuf a := by
  simp only [finishMessage, memWrite_outBuf, Memory.read_write, flushAcc_read]
  exact if_congr eq_comm rfl (if_congr (and_congr_right fun _ => eq_comm) rfl rfl)

/-- FINISH of an open message leaves a finished one (R41). -/
theorem finishMessage_open {s : State} (h : OpenShape s) :
    DoneShape (finishMessage s) := by
  obtain ⟨hN, hP, hA, hF, hL, hPad, hW⟩ := h
  have hcap := s.params.outCap.isLt
  have hpc := padCount_lt s.bitCnt.toNat
  unfold ceil8 at hF
  have hcnt := (finishMessage_frame s).1
  have hpar := (finishMessage_frame s).2.2.2.2.2.params
  have hpad : (finishMessage s).pad = BitVec.ofNat 3 (padCount s.bitCnt.toNat) := by
    simp only [finishMessage, flushAcc]
    split <;> rfl
  have hlen : (finishMessage s).outLen.toNat = 1 + ceil8 s.bitCnt.toNat := by
    unfold ceil8
    by_cases hz : s.accN = 0
    · simp only [finishMessage, flushAcc, hz, if_true, memWrite_outPtr]
      have : s.accN.toNat = 0 := by simp [hz]
      omega
    · have : s.accN.toNat ≠ 0 := fun h0 => hz (BitVec.eq_of_toNat_eq (by simpa using h0))
      simp only [finishMessage, flushAcc, hz, if_false, memWrite_outPtr]
      rw [BitVec.toNat_add, Nat.mod_eq_of_lt (by simp; omega)]
      simp
      omega
  refine ⟨rfl, rfl, ?_, ?_, rfl, ?_, ?_, ?_⟩
  · rw [hcnt, hpad, BitVec.toNat_ofNat]
    exact Nat.mod_eq_of_lt hpc
  · rw [hcnt]
    exact hlen
  · rw [hlen, hpar]
    exact hF
  · rw [finishMessage_read, hpad]
    rfl
  · intro i hi
    rw [hlen] at hi
    unfold ceil8 at hi
    rw [finishMessage_read]
    split_ifs with h0 h1
    · rfl
    · rfl
    · refine hW i (by omega) ?_
      by_contra hge
      have hacc : s.accN.toNat ≠ 0 := by omega
      exact h1 ⟨fun hz => hacc (by simp [hz]), by omega⟩

end Sys2Proof.Machine
end

