-- ==== Sys2Proof/Laws/HostBus.lean ====
section
/-! SUPPORT. Performing a command always gives a next state and leaves the parameters and the host alone; and what a host
access names. -/

namespace Sys2Proof.Machine

theorem SameWorld.rfl (s : State) : SameWorld s s := ⟨.refl _, .refl _, .refl _, .refl _⟩

theorem raise_world (e : ErrCode) (w : Word) (s : State) :
    ∃ t, raise e w s = .next t ∧ SameWorld s t := ⟨_, .refl _, ⟨.refl _, .refl _, .refl _, .refl _⟩⟩

/-- A performed command always answers a next state, with the parameters, the reset counter and the host unchanged. -/
theorem exec_world (i : Instr) (s : State) : ∃ t, exec i s = .next t ∧ SameWorld s t := by
  cases i with
  | nop a b => exact ⟨s, rfl, .rfl s⟩
  | sreset a b => exact ⟨_, rfl, ⟨.refl _, .refl _, .refl _, .refl _⟩⟩
  | clear a b =>
    simp only [exec, execClear]
    split
    · exact raise_world ..
    · exact ⟨_, rfl, ⟨.refl _, .refl _, .refl _, .refl _⟩⟩
  | load sym len =>
    simp only [exec, execLoad]
    split
    · exact raise_world ..
    · split
      · exact raise_world ..
      · exact ⟨_, rfl, ⟨.refl _, .refl _, .refl _, .refl _⟩⟩
  | read sym b => exact ⟨_, rfl, ⟨.refl _, .refl _, .refl _, .refl _⟩⟩
  | begin a b =>
    simp only [exec, execBegin]
    split
    · exact raise_world ..
    · exact ⟨_, rfl, ⟨.refl _, .refl _, .refl _, .refl _⟩⟩
  | enc sym b =>
    simp only [exec, execEnc]
    split
    · exact raise_world ..
    · split
      · exact raise_world ..
      · split
        · exact raise_world ..
        · exact ⟨_, rfl, (appendBits_frame _ s).2.2.2.2.2⟩
  | finish a b =>
    simp only [exec, execFinish]
    split
    · exact raise_world ..
    · exact ⟨_, rfl, (finishMessage_frame s).2.2.2.2.2⟩

/-- A written word always answers a next state, with the parameters, the reset counter and the host unchanged. -/
theorem performWord_world (w : Word) (s : State) : ∃ t, performWord w s = .next t ∧ SameWorld s t := by
  unfold performWord
  split
  · exact exec_world ..
  · exact raise_world ..

/-- Every register is found at its offset. -/
theorem regAt_offset (r : Reg) : regAt r.offset = some r := by
  cases r with
  | codeData w => revert w; decide
  | id | cmd | status | errCmd | bitCntLo | bitCntHi | outPtr | outLen | pad | acc | cap | cfg | rdLen => decide

/-- A 32-bit access at a register's offset names that register. -/
theorem targetAt_reg (outCap : Nat) (r : Reg) : targetAt outCap r.offset 4 = some (.reg r) := by
  have h : r.offset < bufOffset ∧ r.offset % 4 = 0 := by
    cases r with
    | codeData w => exact ⟨by simp only [Reg.offset, bufOffset]; omega, by simp only [Reg.offset]; omega⟩
    | id | cmd | status | errCmd | bitCntLo | bitCntHi | outPtr | outLen | pad | acc | cap | cfg | rdLen => decide
  simp [targetAt, h.1, h.2, regAt_offset]

/-- An access at or above BASE is judged by its window offset. -/
theorem withTarget_add (off n : Nat) (s : State) (k : Target → Host.Outcome State Fault Refusal) :
    withTarget (s.params.base + off) n s k =
      match targetAt s.params.outCap.toNat off n with
      | some t => k t
      | none => .fault (.badAccess off n) := by
  cases h : targetAt s.params.outCap.toNat off n <;>
    simp only [withTarget, Nat.not_lt.mpr (Nat.le_add_right _ _), if_false, Nat.add_sub_cancel_left, h]

/-- An aligned access of OUT_BUF inside its capacity names the byte it starts at (R49). -/
theorem targetAt_buf (outCap i n : Nat) (hn : n = 1 ∨ n = 2 ∧ i % 2 = 0 ∨ n = 4 ∧ i % 4 = 0) (hi : i + n ≤ outCap) :
    targetAt outCap (bufOffset + i) n = some (.buf i) := by
  have h : (n = 1 ∨ n = 2 ∨ n = 4) ∧ (bufOffset + i) % n = 0 := by
    simp only [bufOffset]
    rcases hn with rfl | ⟨rfl, h⟩ | ⟨rfl, h⟩ <;> omega
  rw [targetAt, if_neg (by omega), if_pos ⟨h.1, h.2, by omega⟩, Nat.add_sub_cancel_left]

/-- An accepted OUT_BUF read answers `readBuf`, the block unchanged (R51). -/
theorem hostAct_bufRead (i n : Nat) (s : State) (hn : n = 1 ∨ n = 2 ∧ i % 2 = 0 ∨ n = 4 ∧ i % 4 = 0)
    (hi : i + n ≤ s.params.outCap.toNat) :
    hostAct (.read (s.params.base + (bufOffset + i)) n) s =
      .next { s with received := s.received ++ [readBuf s i n] } := by
  simp only [hostAct, withTarget_add, targetAt_buf _ i n hn hi, readTarget]

/-- Writing a word to CMD performs it. -/
theorem hostAct_cmdWrite (w : Word) (s : State) : hostAct (cmdWrite s.params w) s = performWord w s := by
  simp [hostAct, cmdWrite, withTarget_add, targetAt_reg, writeTarget]

/-- The step that performs an issued word. -/
theorem nextEvent_cmdWrite (w : Word) (rest : List HostEvent) (s : State)
    (h : s.pending = cmdWrite s.params w :: rest) : nextEvent s = performWord w { s with pending := rest } := by
  simp only [nextEvent, h]
  exact hostAct_cmdWrite w { s with pending := rest }

end Sys2Proof.Machine
end

