-- ==== Sys2Proof/Laws/Exec.lean ====
section
/-! SUPPORT. Said once: what a performed command can do, and what a step can do. -/

namespace Sys2Proof.Machine

/-- What a command that succeeds leaves, by command, with the conditions under which it succeeds. -/
def Success : Instr → State → State → Prop
  | .nop _ _, s, t => t = s
  | .sreset _ _, s, t => t = softReset s
  | .clear _ _, s, t => s.phase ≠ .enc ∧ t = invalidateTable s
  | .load sym len, s, t =>
    s.phase ≠ .enc ∧ badLength s len = false ∧ t = setEntry sym ⟨true, len, codeOperand s.codeValue len⟩ s
  | .read sym _, s, t => t = stageEntry (s.entry sym) s
  | .begin _ _, s, t => s.phase ≠ .enc ∧ t = openMessage s
  | .enc sym _, s, t =>
    s.phase = .enc ∧ (s.entry sym).valid = true ∧ overflows s (s.entry sym).len = false ∧
      t = appendBits (s.entry sym).bits s
  | .finish _ _, s, t => s.phase = .enc ∧ t = finishMessage s

/-- A performed command raises one error with its own word, or succeeds (R106, and the command rules). -/
theorem exec_cases {i : Instr} {s t : State} (h : exec i s = .next t) :
    (∃ e, e ≠ .none ∧ t = s.raised e (encode i)) ∨ Success i s t := by
  cases i with
  | nop a b => exact .inr (by cases h; rfl)
  | sreset a b => exact .inr (by cases h; rfl)
  | clear a b =>
    simp only [exec, execClear] at h
    split at h
    · cases h; exact .inl ⟨.state, by decide, rfl⟩
    · cases h; exact .inr ⟨‹_›, rfl⟩
  | load sym len =>
    simp only [exec, execLoad] at h
    split at h
    · cases h; exact .inl ⟨.state, by decide, rfl⟩
    · split at h
      · cases h; exact .inl ⟨.badLen, by decide, rfl⟩
      · cases h; exact .inr ⟨‹_›, by simpa using ‹¬badLength s len = true›, rfl⟩
  | read sym b => exact .inr (by cases h; rfl)
  | begin a b =>
    simp only [exec, execBegin] at h
    split at h
    · cases h; exact .inl ⟨.state, by decide, rfl⟩
    · cases h; exact .inr ⟨‹_›, rfl⟩
  | enc sym b =>
    simp only [exec, execEnc] at h
    split at h
    · cases h; exact .inl ⟨.state, by decide, rfl⟩
    · split at h
      · cases h; exact .inl ⟨.noCode, by decide, rfl⟩
      · split at h
        · cases h; exact .inl ⟨.overflow, by decide, rfl⟩
        · rename_i hp hv ho
          cases h
          exact .inr ⟨by simpa using hp, by simpa using hv, by simpa using ho, rfl⟩
  | finish a b =>
    simp only [exec, execFinish] at h
    split at h
    · cases h; exact .inl ⟨.state, by decide, rfl⟩
    · rename_i hp
      cases h
      exact .inr ⟨by simpa using hp, rfl⟩

/-- A written word raises ILLEGAL, or is performed as the command it decodes to (R64). -/
theorem performWord_cases {w : Word} {s t : State} (h : performWord w s = .next t) :
    t = s.raised .illegal w ∨ ∃ i, decode w = .ok i ∧ exec i s = .next t := by
  unfold performWord at h
  split at h
  · exact .inr ⟨_, ‹_›, h⟩
  · cases h; exact .inl rfl

/-- Only offset 0x004 names CMD. -/
theorem targetAt_eq_cmd {outCap off n : Nat} (h : targetAt outCap off n = some (.reg .cmd)) : off = 4 ∧ n = 4 := by
  unfold targetAt at h
  split at h
  · split at h
    · rename_i hn
      split at h
      · rename_i r hr
        simp only [Option.some.injEq, Target.reg.injEq] at h
        subst h
        have := List.find?_some hr
        exact ⟨by simpa [Reg.offset] using (beq_iff_eq.mp this).symm, hn.1⟩
      · simp at h
    · simp at h
  · split at h <;> simp at h

/-- What a step can do (R16, R55): nothing, answer a read, perform a command, store a CODE_DATA word, ignore a write,
or take a hardware reset. -/
theorem step_cases {s t : State} (h : step s = .next t) :
    (s.pending = [] ∧ t = s) ∨
    ∃ rest, (∃ addr n v, s.pending = .read addr n :: rest ∧
        t = { s with pending := rest, received := s.received ++ [v] }) ∨
      (∃ w, s.pending = .write (s.params.base + 4) 4 w :: rest ∧ performWord w { s with pending := rest } = .next t) ∨
      (∃ addr n v k, s.pending = .write addr n v :: rest ∧ t = setCodeWord k v { s with pending := rest }) ∨
      (∃ addr n v, s.pending = .write addr n v :: rest ∧ t = { s with pending := rest }) ∨
      (s.pending = .hwReset :: rest ∧ t = hardReset { s with pending := rest }) := by
  unfold step nextEvent at h
  split at h
  · cases h
    exact .inl ⟨‹_›, rfl⟩
  · rename_i e rest hp
    refine .inr ⟨rest, ?_⟩
    cases e with
    | read addr n =>
      simp only [hostAct, withTarget] at h
      split at h
      · cases h
      · split at h
        · cases h; exact .inl ⟨addr, n, _, hp, rfl⟩
        · cases h
    | write addr n v =>
      simp only [hostAct, withTarget] at h
      split at h
      · cases h
      · rename_i hb
        split at h
        · rename_i tgt htgt
          cases tgt with
          | reg r =>
            cases r with
            | cmd =>
              obtain ⟨ho, rfl⟩ := targetAt_eq_cmd htgt
              have ha : addr = s.params.base + 4 := by omega
              exact .inr (.inl ⟨v, by rw [hp, ha], h⟩)
            | codeData k => cases h; exact .inr (.inr (.inl ⟨addr, n, v, k, hp, rfl⟩))
            | id | status | errCmd | bitCntLo | bitCntHi | outPtr | outLen | pad | acc | cap | cfg | rdLen =>
              cases h; exact .inr (.inr (.inr (.inl ⟨addr, n, v, hp, rfl⟩)))
          | reserved => cases h; exact .inr (.inr (.inr (.inl ⟨addr, n, v, hp, rfl⟩)))
          | buf i => cases h; exact .inr (.inr (.inr (.inl ⟨addr, n, v, hp, rfl⟩)))
        · cases h
    | hwReset => cases h; exact .inr (.inr (.inr (.inr ⟨hp, rfl⟩)))

end Sys2Proof.Machine
end

