-- ==== Sys2Proof/Laws/PerInstr.lean ====
section
/-! SUPPORT. Per constructor: the fixed fields of a command's word are those of its row in the opcode table. -/

namespace Sys2Proof.Laws.EncodeFields

/-- The word has the command's opcode in bits 7:0 and 0 in bits 31:24 (R61, R63). -/
def Statement (i : Instr) : Prop :=
  opField (encode i) = Machine.opcodeOf i ∧ rsvField (encode i) = 0

theorem nop (a : Sym) (b : Len) : Statement (.nop a b) := ⟨opField_packWord _ _ _, rsvField_packWord _ _ _⟩
theorem sreset (a : Sym) (b : Len) : Statement (.sreset a b) := ⟨opField_packWord _ _ _, rsvField_packWord _ _ _⟩
theorem clear (a : Sym) (b : Len) : Statement (.clear a b) := ⟨opField_packWord _ _ _, rsvField_packWord _ _ _⟩
theorem load (a : Sym) (b : Len) : Statement (.load a b) := ⟨opField_packWord _ _ _, rsvField_packWord _ _ _⟩
theorem read (a : Sym) (b : Len) : Statement (.read a b) := ⟨opField_packWord _ _ _, rsvField_packWord _ _ _⟩
theorem begin (a : Sym) (b : Len) : Statement (.begin a b) := ⟨opField_packWord _ _ _, rsvField_packWord _ _ _⟩
theorem enc (a : Sym) (b : Len) : Statement (.enc a b) := ⟨opField_packWord _ _ _, rsvField_packWord _ _ _⟩
theorem finish (a : Sym) (b : Len) : Statement (.finish a b) := ⟨opField_packWord _ _ _, rsvField_packWord _ _ _⟩

end Sys2Proof.Laws.EncodeFields
end

