-- ==== Sys2Proof/Laws/Safety.lean ====
section
/-! SUPPORT. The parts of R41's invariant under the shared operations. -/

namespace Sys2Proof.Machine

/-- In every state the message registers have one of three shapes (R41). -/
theorem StateInv.shape {s : State} (h : StateInv s) : ResetShape s ∨ OpenShape s ∨ DoneShape s := by
  have hm := h.message
  unfold MessageShape at hm
  split at hm <;> tauto

/-- What MessageShape says depends only on STATE, the message registers, OUT_BUF and the parameters. -/
theorem MessageShape.congr {s t : State} (h : MessageShape s) (hp : t.phase = s.phase) (hpar : t.params = s.params)
    (hm : SameMessage s t) : MessageShape t := by
  obtain ⟨a1, a2, a3, a4, a5, a6, a7⟩ := hm
  have e1 : ResetShape s → ResetShape t :=
    fun h => ⟨a1 ▸ h.1, a2 ▸ h.2, a3 ▸ h.3, a4 ▸ h.4, a5 ▸ h.5, a6 ▸ h.6⟩
  have e2 : OpenShape s → OpenShape t :=
    fun h => ⟨by rw [a1, a6]; exact h.1, by rw [a1, a2]; exact h.2, by rw [a5, a6]; exact h.3,
      by rw [a1, hpar]; exact h.4, a3 ▸ h.5, a4 ▸ h.6, by rw [a2, a7]; exact h.7⟩
  have e3 : DoneShape s → DoneShape t :=
    fun h => ⟨by rw [a5]; exact h.1, by rw [a6]; exact h.2, by rw [a4, a1]; exact h.3, by rw [a3, a1]; exact h.4,
      by rw [a2, a3]; exact h.5, by rw [a3, hpar]; exact h.6, by rw [a7, a4]; exact h.7, by rw [a3, a7]; exact h.8⟩
  unfold MessageShape at h ⊢
  rw [hp]
  split at h <;> simp_all
  tauto

theorem Entry.invalid_ok (p : Params) : Entry.invalid.Ok p := ⟨fun _ => ⟨rfl, rfl⟩, fun h => by cases h⟩

/-- Appending bits keeps OUT_BUF in canonical form. -/
theorem wf_appendBits (bs : Bits) (s : State) (hw : Memory.wf s.outBuf) : Memory.wf (appendBits bs s).outBuf := by
  induction bs generalizing s with
  | nil => exact hw
  | cons b bs ih =>
    rw [appendBits_cons]
    apply ih
    unfold appendBit
    dsimp only
    split
    · exact Memory.wf_write _ _ hw
    · exact hw

/-- FINISH keeps OUT_BUF in canonical form. -/
theorem wf_finishMessage (s : State) (hw : Memory.wf s.outBuf) : Memory.wf (finishMessage s).outBuf := by
  simp only [finishMessage, flushAcc]
  split
  · exact Memory.wf_write _ _ hw
  · exact Memory.wf_write _ _ (Memory.wf_write _ _ hw)

end Sys2Proof.Machine
end

