-- ==== Sys2Proof/Laws/Staging.lean ====
section
/-! SUPPORT. CODE_DATA as one 256-bit value (R33). -/

namespace Sys2Proof.Machine

/-- A word placed in lane `j` of a 256-bit value shows its bits in that lane only. -/
theorem lane_getLsbD (w : Word) (j q r : Nat) (hq : q < 8) (hr : r < 32) :
    (w.setWidth 256 <<< (32 * j)).getLsbD (32 * q + r) = (decide (j = q) && w.getLsbD r) := by
  rw [BitVec.getLsbD_shiftLeft, BitVec.getLsbD_setWidth]
  rcases Nat.lt_trichotomy j q with h | rfl | h
  · have : w.getLsbD (32 * q + r - 32 * j) = false := BitVec.getLsbD_of_ge w _ (by omega)
    simp [this, Nat.ne_of_lt h]
  · have : 32 * j + r < 256 := by omega
    simp [this]
    omega
  · have : 32 * q + r < 32 * j := by omega
    simp [this, Nat.ne_of_gt h]

/-- `CD[32w+31:32w] = CODE_DATA[w]` (R33). -/
theorem codeValue_getLsbD (s : State) (k : Nat) (h : k < 256) :
    s.codeValue.getLsbD k = (s.codeData[k / 32]'(by omega)).getLsbD (k % 32) := by
  obtain ⟨q, r, rfl, hr⟩ : ∃ q r, k = 32 * q + r ∧ r < 32 := ⟨k / 32, k % 32, by omega, by omega⟩
  have hq : q < 8 := by omega
  have e1 : (32 * q + r) / 32 = q := by omega
  have e2 : (32 * q + r) % 32 = r := by omega
  simp only [e1, e2, State.codeValue, List.finRange_succ, List.finRange_zero, List.foldr_cons, List.foldr_nil,
    List.map_cons, List.map_nil, BitVec.getLsbD_or, lane_getLsbD _ _ q r hq hr]
  interval_cases q <;> simp

/-- Writing all eight words from a value makes CODE_DATA hold that value. -/
@[simp] theorem codeValue_setCodeValue (v : BitVec 256) (s : State) : (setCodeValue v s).codeValue = v := by
  apply BitVec.eq_of_getLsbD_eq
  intro k hk
  rw [codeValue_getLsbD _ _ hk]
  have h1 : k % 32 < 32 := Nat.mod_lt _ (by omega)
  have h2 : 32 * (k / 32) + k % 32 = k := Nat.div_add_mod k 32
  simp [setCodeValue, h2, h1]

/-- LOAD keeps the bits below the length (R67). -/
theorem codeOperand_getLsbD (cd : BitVec 256) (len : Len) (k : Nat) (h : k < 255) :
    (codeOperand cd len).getLsbD k = (decide (k < len.toNat) && cd.getLsbD k) := by
  rw [codeOperand, BitVec.getLsbD_ofNat, Nat.testBit_mod_two_pow]
  simp [h, BitVec.getLsbD]

/-- LOAD's code value is below 2^L (R34, R41). -/
theorem codeOperand_lt (cd : BitVec 256) (len : Len) : (codeOperand cd len).toNat < 2 ^ len.toNat :=
  Nat.lt_of_le_of_lt (by simpa [codeOperand] using Nat.mod_le _ _) (Nat.mod_lt cd.toNat (Nat.two_pow_pos len.toNat))

end Sys2Proof.Machine
end

