-- ==== Sys2Proof/Machine/Assembler.lean ====
section
/-! DEFINITION. The text of host programs (R72, R73): one command or access a line. What R72 leaves open of the
text (white space, letter case, what an ill-formed line means, the operands of ENCSTR and PACK, the table of LDTABLE) is log
15. -/

namespace Sys2Proof.Machine.Asm

open Sys2Proof.Machine

/-- What a line is cut into. -/
inductive Token where
  /-- A mnemonic, a register name or a number. -/
  | word (cs : List Char)
  /-- A character in single quotes. -/
  | chr (c : Char)
  /-- A text in double quotes. -/
  | str (cs : List Char)
  /-- A double quote that is never closed: an operand of no line (log 15). -/
  | unclosed
  | comma
  | lbrack
  | rbrack
deriving DecidableEq, Repr

/-- The word read so far, if any, before the tokens that follow. -/
def flush (w : List Char) (ts : List Token) : List Token :=
  match w with
  | [] => ts
  | _ :: _ => .word w.reverse :: ts

/-- Cut a line into tokens. `q` is the text of an open double quote, reversed; `w` the open word, reversed. `;`
starts a comment (R72). -/
def tokenize : Option (List Char) → List Char → List Char → List Token
  | some _, _, [] => [.unclosed]
  | none, w, [] => flush w []
  | some q, w, c :: cs =>
    if c = '"' then .str q.reverse :: tokenize none w cs else tokenize (some (c :: q)) w cs
  | none, w, '\'' :: c :: '\'' :: cs => flush w (.chr c :: tokenize none [] cs)
  | none, w, c :: cs =>
    if c = ';' then flush w []
    else if c = ' ' then flush w (tokenize none [] cs)
    else if c = ',' then flush w (.comma :: tokenize none [] cs)
    else if c = '[' then flush w (.lbrack :: tokenize none [] cs)
    else if c = ']' then flush w (.rbrack :: tokenize none [] cs)
    else if c = '"' then flush w (tokenize (some []) [] cs)
    else tokenize none (c :: w) cs

/-- A digit of a hexadecimal number. -/
def hexDigit (c : Char) : Option Nat :=
  if '0' ≤ c ∧ c ≤ '9' then some (c.toNat - '0'.toNat)
  else if 'a' ≤ c ∧ c ≤ 'f' then some (c.toNat - 'a'.toNat + 10)
  else if 'A' ≤ c ∧ c ≤ 'F' then some (c.toNat - 'A'.toNat + 10)
  else none

/-- The digits of a number to a base; none at a character that is no digit of it. -/
def digits (base : Nat) : Nat → List Char → Option Nat
  | v, [] => some v
  | v, c :: cs =>
    match hexDigit c with
    | some d => if d < base then digits base (base * v + d) cs else none
    | none => none

/-- A number: `0x` and hexadecimal digits, or decimal digits (R13, R72). -/
def number : List Char → Option Nat
  | [] => none
  | '0' :: 'x' :: c :: cs => digits 16 0 (c :: cs)
  | c :: cs => digits 10 0 (c :: cs)

/-- A number below a bound. -/
def numberBelow (bound : Nat) (cs : List Char) : Option Nat :=
  (number cs).bind (fun v => if v < bound then some v else none)

/-- The byte of a character: its ASCII code (R72, GK2). -/
def charSym (c : Char) : Option Sym :=
  if c.toNat < 128 then some (BitVec.ofNat 8 c.toNat) else none

/-- A `sym`: a number 0 to 255 or a character in single quotes (R72). -/
def symOf : Token → Option Sym
  | .word cs => (numberBelow 256 cs).map (BitVec.ofNat 8)
  | .chr c => charSym c
  | .str _ | .unclosed | .comma | .lbrack | .rbrack => none

/-- A `len`: a decimal number (R72). -/
def lenOf : Token → Option Len
  | .word cs =>
    match cs with
    | [] => none
    | _ :: _ => (digits 10 0 cs).bind (fun v => if v < 256 then some (BitVec.ofNat 8 v) else none)
  | .chr _ | .str _ | .unclosed | .comma | .lbrack | .rbrack => none

/-- A 32-bit value. -/
def valueOf : Token → Option Word
  | .word cs => (numberBelow (2 ^ 32) cs).map (BitVec.ofNat 32)
  | .chr _ | .str _ | .unclosed | .comma | .lbrack | .rbrack => none

/-- The registers that have a plain name (R20). -/
def regNames : List (String × Reg) :=
  [("ID", .id), ("CMD", .cmd), ("STATUS", .status), ("ERRCMD", .errCmd), ("BITCNT_LO", .bitCntLo),
    ("BITCNT_HI", .bitCntHi), ("OUT_PTR", .outPtr), ("OUT_LEN", .outLen), ("PAD", .pad), ("ACC", .acc),
    ("CAP", .cap), ("CFG", .cfg), ("RD_LEN", .rdLen)]

/-- An offset: a number, or a register name standing for it, `CODE_DATA[1]` among them (R72). -/
def offsetOf : List Token → Option Nat
  | [.word cs] =>
    match regNames.find? (fun x => x.1.toList == cs) with
    | some x => some x.2.offset
    | none => number cs
  | [.word cs, .lbrack, .word k, .rbrack] =>
    if cs = "CODE_DATA".toList then (numberBelow 8 k).map (fun w => 0x040 + 4 * w) else none
  | _ => none

/-- Operands are separated by commas. -/
def splitArgs : List Token → List (List Token)
  | [] => [[]]
  | .comma :: ts => [] :: splitArgs ts
  | t :: ts =>
    match splitArgs ts with
    | a :: as => (t :: a) :: as
    | [] => [[t]]

/-- A code in double quotes. -/
def bitsOfText (cs : List Char) : Option Bits :=
  cs.mapM (fun c => if c = '0' then some false else if c = '1' then some true else none)

/-- The symbols of ENCSTR and PACK: a text in double quotes (R73), which may be empty, or one or more `sym`s one after
another. DESIGN CHOICE (log 15): R73 writes that second form with hexadecimal numbers and for ENCSTR only, and says
nothing of the empty text; the model takes every `sym` of R72 there, and takes the form for PACK too. No operand at all
is ill-formed. -/
def symsOf : List Token → Option (List Sym)
  | [] => none
  | [.str cs] => cs.mapM charSym
  | ts => ts.mapM symOf

/-- A command with its operands (R72). -/
def commandOf : List Token → Option Instr
  | .word m :: rest =>
    match splitArgs rest with
    | [[]] =>
      if m = "NOP".toList then some (.nop 0 0)
      else if m = "SRESET".toList then some (.sreset 0 0)
      else if m = "CLEAR".toList then some (.clear 0 0)
      else if m = "BEGIN".toList then some (.begin 0 0)
      else if m = "FINISH".toList then some (.finish 0 0)
      else none
    | [[a]] =>
      if m = "READ".toList then (symOf a).map (fun s => .read s 0)
      else if m = "ENC".toList then (symOf a).map (fun s => .enc s 0)
      else none
    | [[a], [b]] =>
      if m = "LOAD".toList then (symOf a).bind (fun s => (lenOf b).map (fun l => .load s l)) else none
    | _ => none
  | _ => none

/-- A host access or a pseudo-instruction (R13, R72, R73). -/
def accessOrMacroOf : List Token → Option Line
  | .word m :: rest =>
    if m = "RDOUT".toList ∧ rest = [] then some .rdOut
    else if m = "ENCSTR".toList then (symsOf rest).map .encStr
    else if m = "PACK".toList then (symsOf rest).map .pack
    else if m = "RD".toList then (offsetOf rest).map .rd
    else
      match splitArgs rest with
      | [[a]] => if m = "RDCODE".toList then (symOf a).map .rdCode else none
      | [as, [b]] =>
        if m = "WR".toList then (offsetOf as).bind (fun off => (valueOf b).map (Line.wr off))
        else
          match as, b with
          | [a], .str cs =>
            if m = "LDCODE".toList then (symOf a).bind (fun s => (bitsOfText cs).map (Line.ldCode s)) else none
          | _, _ => none
      | _ => none
  | _ => none

/-- One line of text; none for an ill-formed one and for one that holds nothing. A command may stand alone (R72) or
after the word `CMD` (R13). DESIGN CHOICE (log 15): R73 gives the table T of an `LDTABLE T` line, and R12 the primitive
`MemRead(i, n)`, no written form as a line, so a line of text that begins with either is no line; both are lines of
`Line`, and their expansions and accesses are modelled there. -/
def parseTokens (ts : List Token) : Option Line :=
  match (if ts.head? = some (.word "CMD".toList) then commandOf ts.tail else commandOf ts) with
  | some i => some (.cmd i)
  | none => accessOrMacroOf ts

/-- A line of a host program (R72, R73). -/
def parseLine (text : String) : Option Line := parseTokens (tokenize none [] text.toList)

end Sys2Proof.Machine.Asm
end

