-- ==== Sys2Proof/Tests/Slice0.lean ====
section
/-! SUPPORT. Tests: expected results are those of spec/95_test_vectors.md (worked by hand there from the rules), the
section given at each group; and a witness for the hypotheses of every statement. -/

-- One theorem after another: each is a kernel evaluation, and many at once ask for more memory than the check allows.
set_option Elab.async false

namespace Sys2Proof.Tests

open Sys2Proof.Machine Sys2Proof.Reference

/-! ## States the tests start from -/

/-- The state an outcome holds (the reset state for a stop, which no test reads). -/
def after : Host.Outcome State Fault Refusal → State
  | .next t => t
  | .fault _ | .refused _ => State.reset

/-- Whether an outcome is a next state. -/
def isNext : Host.Outcome State Fault Refusal → Bool
  | .next _ => true
  | .fault _ | .refused _ => false

/-- The fault of an outcome. -/
def faultOf : Host.Outcome State Fault Refusal → Option Fault
  | .fault f => some f
  | .next _ | .refused _ => none

/-- The table of 2.4: CT['a'] = "1", CT['b'] = "0". -/
def withAB (s : State) : State := setEntry 0x61 ⟨true, 1, 1⟩ (setEntry 0x62 ⟨true, 1, 0⟩ s)

/-- A message just opened with that table (OUT_CAP 4096). -/
def opened : State := { withAB State.reset with phase := .enc, outPtr := 1 }

/-- The same with another OUT_CAP. -/
def openedCap (cap : Word) : State := { opened with params := ⟨cap, 255, 0⟩ }

/-- "aaab" encoded: BITCNT = 4, ACC = 0x40E (3.1). -/
def openedAaab : State := { opened with bitCnt := 4, acc := 0x0E, accN := 4 }

/-- "aaab" finished: payload 04 E0 (3.1). -/
def doneAaab : State :=
  { withAB State.reset with
    phase := .done, bitCnt := 4, outPtr := 2, outLen := 2, pad := 4, outBuf := [(0, 0x04), (1, 0xE0)] }

/-- ERR with NOCODE recorded for the word 0x00007A06 (2.2). -/
def errNoCode : State := { withAB State.reset with phase := .err, errCode := .noCode, errCmd := 0x00007A06 }

/-- What a 32-bit (or narrower) host read returns. -/
def hostRead (s : State) (addr n : Nat) : Option Word :=
  (after (step { s with pending := [.read addr n] })).received.getLast?

/-! ## Well-formedness: one ill-formed term for each check (R63) -/

theorem test_wf_nop_sym : (Instr.nop 1 0).wellFormed = false := by decide
theorem test_wf_nop_len : (Instr.nop 0 1).wellFormed = false := by decide
theorem test_wf_sreset : (Instr.sreset 0 1).wellFormed = false ∧ (Instr.sreset 1 0).wellFormed = false := by decide
theorem test_wf_clear : (Instr.clear 0 1).wellFormed = false ∧ (Instr.clear 1 0).wellFormed = false := by decide
theorem test_wf_read : (Instr.read 7 1).wellFormed = false ∧ (Instr.read 7 0).wellFormed = true := by decide
theorem test_wf_begin : (Instr.begin 0 1).wellFormed = false ∧ (Instr.begin 1 0).wellFormed = false := by decide
theorem test_wf_enc : (Instr.enc 7 1).wellFormed = false ∧ (Instr.enc 7 0).wellFormed = true := by decide
theorem test_wf_finish : (Instr.finish 0 1).wellFormed = false ∧ (Instr.finish 1 0).wellFormed = false := by decide

/-! ## Decoding (2.1) -/

theorem test_decode_nop : decode 0x00000000 = .ok (.nop 0 0) ∧ decode 0x00FFFF00 = .ok (.nop 0xFF 0xFF) := by decide
theorem test_decode_sreset : decode 0x00000001 = .ok (.sreset 0 0) := by decide
theorem test_decode_clear : decode 0x00000002 = .ok (.clear 0 0) := by decide
theorem test_decode_load :
    decode 0x00036203 = .ok (.load 0x62 3) ∧ decode 0x00FF0003 = .ok (.load 0 255) := by decide
theorem test_decode_read :
    decode 0x00006204 = .ok (.read 0x62 0) ∧ decode 0x00AB6204 = .ok (.read 0x62 0xAB) := by decide
theorem test_decode_begin : decode 0x00000005 = .ok (.begin 0 0) := by decide
theorem test_decode_enc : decode 0x00006106 = .ok (.enc 0x61 0) ∧ decode 0x0000FF06 = .ok (.enc 0xFF 0) := by decide
theorem test_decode_finish : decode 0x00FFFF07 = .ok (.finish 0xFF 0xFF) := by decide
theorem test_decode_illegal_rsv :
    decode 0x01000000 = .error (.reservedBits 1) ∧ decode 0x01000002 = .error (.reservedBits 1) ∧
      decode 0xFF000006 = .error (.reservedBits 0xFF) := by decide
theorem test_decode_illegal_op :
    decode 0x00000008 = .error (.reservedOpcode 8) ∧ decode 0x000000FF = .error (.reservedOpcode 0xFF) := by decide
theorem test_encode_canonical :
    encode (.load 0x62 3) = 0x00036203 ∧ encode (.read 0x62 0) = 0x00006204 ∧ encode (.enc 0x61 0) = 0x00006106 := by
  decide
theorem test_table_word : decodeTableWord 32 0x00036203 = some (.load 0x62 3) ∧ decodeTableWord 32 8 = none := by decide

/-! ## Control commands (2.2) -/

theorem test_nop_in_err : after (exec (.nop 0 0) errNoCode) = errNoCode := by decide +kernel
theorem test_nop_rsv_is_illegal :
    statusWord (after (performWord 0x01000000 State.reset)) = 0x13 ∧
      (after (performWord 0x01000000 State.reset)).errCmd = 0x01000000 := by decide +kernel
theorem test_sreset_from_err :
    statusWord (after (exec (.sreset 0 0) errNoCode)) = 0 ∧ (after (exec (.sreset 0 0) errNoCode)).errCmd = 0 ∧
      (after (exec (.sreset 0 0) errNoCode)).entry 0x61 = ⟨false, 0, 0⟩ := by decide +kernel
theorem test_sreset_keeps_out_buf :
    (after (exec (.sreset 0 0) doneAaab)).outLen = 0 ∧
      (after (exec (.sreset 0 0) doneAaab)).outBuf = [(0, 0x04), (1, 0xE0)] := by decide +kernel

/-! ## Table commands (2.3) -/

/-- LOAD 'b', 3 with stale bits above the code. -/
theorem test_load_ignores_high_bits :
    (after (exec (.load 0x62 3) { State.reset with codeData := (Vector.replicate 8 0xFFFFFFFF).set 0 0xFFFFFFF6 })).entry
      0x62 = ⟨true, 3, 6⟩ := by decide +kernel
/-- LOAD 'A', 40 across two words. -/
theorem test_load_40_bits :
    (after (exec (.load 0x41 40) { State.reset with codeData := (Vector.replicate 8 0).set 1 0x80 })).entry
      0x41 = ⟨true, 40, BitVec.ofNat 255 (2 ^ 39)⟩ := by decide +kernel
theorem test_load_zero_is_bad_len :
    statusWord (after (exec (.load 0x61 0) State.reset)) = 0x33 ∧
      (after (exec (.load 0x61 0) State.reset)).errCmd = 0x00006103 := by decide +kernel
theorem test_load_above_max_len :
    statusWord (after (exec (.load 0x61 17) { State.reset with params := ⟨4096, 16, 0⟩ })) = 0x33 := by decide +kernel
theorem test_load_in_enc_is_state : statusWord (after (exec (.load 0x61 0) opened)) = 0x23 := by decide +kernel
theorem test_clear_in_enc :
    statusWord (after (exec (.clear 0 0) opened)) = 0x23 ∧ (after (exec (.clear 0 0) opened)).errCmd = 2 ∧
      (after (exec (.clear 0 0) opened)).entry 0x61 = ⟨true, 1, 1⟩ := by decide +kernel
theorem test_clear_in_err :
    statusWord (after (exec (.clear 0 0) errNoCode)) = 0x43 ∧
      (after (exec (.clear 0 0) errNoCode)).entry 0x61 = ⟨false, 0, 0⟩ := by decide +kernel
theorem test_read_255_ones :
    (after (exec (.read 0xFF 0) (setEntry 0xFF ⟨true, 255, -1⟩ State.reset))).codeData =
        (Vector.replicate 8 0xFFFFFFFF).set 7 0x7FFFFFFF ∧
      rdLenWord (after (exec (.read 0xFF 0) (setEntry 0xFF ⟨true, 255, -1⟩ State.reset))) = 0x1FF := by decide +kernel
theorem test_read_invalid :
    rdLenWord (after (exec (.read 0 0) { State.reset with codeData := Vector.replicate 8 7 })) = 0 ∧
      (after (exec (.read 0 0) { State.reset with codeData := Vector.replicate 8 7 })).codeData =
        Vector.replicate 8 0 := by decide +kernel

/-! ## Message commands (2.4, 2.5) -/

theorem test_begin_clears_error :
    statusWord (after (exec (.begin 0 0) errNoCode)) = 0x01 ∧ (after (exec (.begin 0 0) errNoCode)).errCmd = 0 ∧
      (after (exec (.begin 0 0) errNoCode)).outPtr = 1 ∧
      (after (exec (.begin 0 0) errNoCode)).entry 0x61 = ⟨true, 1, 1⟩ := by decide +kernel
theorem test_begin_in_enc :
    statusWord (after (exec (.begin 0 0) openedAaab)) = 0x23 ∧ accWord (after (exec (.begin 0 0) openedAaab)) = 0x40E := by
  decide +kernel
/-- ENC 'a' with code "0" after "abr": the byte 0x6E. -/
theorem test_enc_completes_byte :
    let t := after (exec (.enc 0x62 0) { opened with bitCnt := 7, acc := 0x37, accN := 7 })
    t.outBuf = [(1, 0x6E)] ∧ t.outPtr = 2 ∧ accWord t = 0 ∧ t.bitCnt = 8 := by decide +kernel
/-- ENC of 255 ones after one "0": 32 bytes. -/
theorem test_enc_255_ones :
    let t := after (exec (.enc 0xFF 0)
      { setEntry 0xFF ⟨true, 255, -1⟩ opened with bitCnt := 1, acc := 0, accN := 1 })
    t.bitCnt = 256 ∧ t.outPtr = 33 ∧ accWord t = 0 ∧ Memory.read t.outBuf 1 = some 0x7F ∧
      Memory.read t.outBuf 32 = some 0xFF ∧ Memory.read t.outBuf 33 = none := by decide +kernel
theorem test_enc_no_code :
    let t := after (exec (.enc 0x7A 0) openedAaab)
    statusWord t = 0x43 ∧ t.errCmd = 0x00007A06 ∧ accWord t = 0x40E := by decide +kernel
/-- OUT_CAP = 2: a ninth bit does not fit, eight do. -/
theorem test_enc_overflow :
    statusWord (after (exec (.enc 0x61 0) { openedCap 2 with bitCnt := 8, outPtr := 2 })) = 0x53 ∧
      statusWord (after (exec (.enc 0x61 0) { openedCap 2 with bitCnt := 7, acc := 0x7F, accN := 7 })) = 0x01 := by
  decide +kernel
theorem test_finish_aaab :
    let t := after (exec (.finish 0 0) openedAaab)
    t = doneAaab := by decide +kernel
theorem test_finish_whole_bytes :
    let t := after (exec (.finish 0 0) { opened with bitCnt := 32, outPtr := 5 })
    t.outLen = 5 ∧ t.outPtr = 5 ∧ t.pad = 0 ∧ t.outBuf = [(0, 0)] := by decide +kernel
theorem test_enc_in_done :
    let t := after (exec (.enc 0x61 0) doneAaab)
    statusWord t = 0x23 ∧ t.errCmd = 0x00006106 ∧ t.outLen = 2 ∧ t.outBuf = doneAaab.outBuf := by decide +kernel
theorem test_illegal_over_state :
    statusWord (after (performWord 0x01000006 opened)) = 0x13 ∧
      (after (performWord 0x01000006 opened)).errCmd = 0x01000006 := by decide +kernel
theorem test_second_error_dropped : after (performWord 0x000000FF errNoCode) = errNoCode := by decide +kernel

/-! ## The host window (2.7) -/

theorem test_read_id : hostRead State.reset 0x000 4 = some 0x48425031 := by decide +kernel
theorem test_read_cap_cfg :
    hostRead State.reset 0x028 4 = some 0x00001000 ∧ hostRead State.reset 0x02C 4 = some 0x000000FF := by decide +kernel
theorem test_read_reserved :
    hostRead State.reset 0x034 4 = some 0 ∧ hostRead State.reset 0xFFC 4 = some 0 := by decide +kernel
theorem test_read_two_bytes : hostRead doneAaab 0x1000 2 = some 0xE004 := by decide +kernel
theorem test_read_one_byte : hostRead doneAaab 0x1001 1 = some 0xE0 := by decide +kernel
theorem test_write_out_buf_ignored :
    (after (step { doneAaab with pending := [.write 0x1000 1 0x55] })) = doneAaab := by decide +kernel
theorem test_bad_access :
    faultOf (step { doneAaab with pending := [.read 0x1001 2] }) = some (.badAccess 0x1001 2) ∧
      faultOf (step { doneAaab with pending := [.read 0x008 1] }) = some (.badAccess 0x008 1) ∧
      faultOf (step { doneAaab with pending := [.read (0x2000 - 2) 4] }) = some (.badAccess 0x1FFE 4) := by
  decide +kernel
theorem test_below_base :
    faultOf (step { State.reset with params := ⟨4096, 255, 8192⟩, pending := [.read 8188 4] }) =
      some (.outsideWindow 8188 4) := by decide +kernel
theorem test_fetch_word_runs :
    after (step (State.reset.withFetchWord 32 0x00000005)) = after (exec (.begin 0 0) State.reset) := by decide +kernel

/-! ## The reference functions (2.8) -/

theorem test_gen_codes_tie_break :
    (buildTree [(0, 1), (1, 1), (2, 2), (3, 3), (4, 5)]).map genCodes =
      some [(4, [false]), (3, [true, false]), (2, [true, true, false]), (0, [true, true, true, false]),
        (1, [true, true, true, true])] := by decide +kernel
/-- "abracadabra". -/
theorem test_host_table_abracadabra :
    hostTable ("abracadabra".toList.map (fun c => BitVec.ofNat 8 c.toNat)) =
      some [(0x61, [false]), (0x63, [true, false, false]), (0x64, [true, false, true]), (0x62, [true, true, false]),
        (0x72, [true, true, true])] := by decide +kernel
theorem test_pack_aaab : pack [true, true, true, false] = [0x04, 0xE0] := by decide +kernel
theorem test_unpack :
    unpack [] = ([], .short) ∧ unpack [0x00] = ([], .ok) ∧ unpack [0x07] = ([], .corrupt) ∧
      unpack [0x04, 0xE0] = ([true, true, true, false], .ok) ∧ unpack [0x09, 0xFF] = ([], .corrupt) ∧
      unpack [0x08, 0xFF] = ([], .ok) := by decide +kernel
theorem test_decode_bits :
    decodeBits [true, true, true, false] [(0x61, [true]), (0x62, [false])] = ([0x61, 0x61, 0x61, 0x62], .ok) ∧
      decodeBits [true, true] [(0x61, [false]), (0x62, [true, true, false]), (0x63, [true, false, false]),
        (0x64, [true, false, true]), (0x72, [true, true, true])] = ([], .corrupt) ∧
      decodeBits [false, false] [(0x7A, [false])] = ([0x7A, 0x7A], .ok) := by decide +kernel

/-! ## Host programs (R72, R73) -/

theorem test_parse_load : Asm.parseLine "LOAD 'b', 3   ; code 110" = some (.cmd (.load 0x62 3)) := by decide +kernel
theorem test_parse_wr : Asm.parseLine "WR CODE_DATA[1], 0x80" = some (.wr 0x044 0x80) := by decide +kernel
theorem test_parse_rd : Asm.parseLine "RD OUT_LEN" = some (.rd 0x01C) := by decide +kernel
theorem test_parse_encstr :
    Asm.parseLine "ENCSTR \"ab\"" = some (.encStr [0x61, 0x62]) ∧
      Asm.parseLine "ENCSTR 0x61 0x62" = some (.encStr [0x61, 0x62]) := by decide +kernel
/-- R13: `CMD <mnemonic operands>` is the command it names. -/
theorem test_parse_cmd : Asm.parseLine "CMD ENC 'a'" = some (.cmd (.enc 0x61 0)) ∧
    Asm.parseLine "CMD RDOUT" = none ∧ Asm.parseLine "FINISH" = some (.cmd (.finish 0 0)) := by decide +kernel
/-- Log 15: no operand, and a quote that is never closed, make no line. -/
theorem test_parse_ill_formed :
    Asm.parseLine "PACK" = none ∧ Asm.parseLine "ENCSTR \"ab" = none ∧ Asm.parseLine "NOP \"" = none := by
  decide +kernel
theorem test_parse_ldcode : Asm.parseLine "LDCODE 'b', \"110\"" = some (.ldCode 0x62 [true, true, false]) := by
  decide +kernel
theorem test_expand_ldcode :
    expandLdCode 0x62 [true, true, false] = [.wr 0x040 6, .cmd (.load 0x62 3)] := by decide +kernel

end Sys2Proof.Tests
end

