-- ==== Sys2Proof/Tests/Witnesses.lean ====
section
/-! SUPPORT. For each statement with hypotheses, a concrete state and operands that meet them all (and, for one of several
clauses, that meet each clause, at a boundary of its range). -/

set_option Elab.async false

namespace Sys2Proof.Tests

open Sys2Proof.Machine Sys2Proof.Reference

/-! ## States that meet the invariant -/

theorem entries_withAB (s : State) (p : Params) (hp : 1 ≤ p.maxLen.toNat) (hs : ∀ sym, (s.entry sym).Ok p) (sym : Sym) :
    ((withAB s).entry sym).Ok p := by
  unfold withAB
  rw [entry_setEntry, entry_setEntry]
  split
  · exact ⟨(fun h => by cases h), fun _ => ⟨by decide, by rw [BitVec.le_def]; exact hp, by decide⟩⟩
  · split
    · exact ⟨(fun h => by cases h), fun _ => ⟨by decide, by rw [BitVec.le_def]; exact hp, by decide⟩⟩
    · exact hs sym

theorem entries_reset (p : Params) (sym : Sym) : (State.reset.entry sym).Ok p := by
  rw [State.reset, resetWith_entry]
  exact Entry.invalid_ok p

/-- A message with four bits sent. -/
theorem inv_openedAaab : StateInv openedAaab where
  params := by decide
  errCode := by decide
  errCmd := fun _ => rfl
  entries := entries_withAB _ _ (by decide) (entries_reset _)
  memWf := Memory.wf_nil
  memInside := fun c hc => by cases hc
  message := ⟨by decide, by decide, by decide, by decide, rfl, rfl, fun i h1 h2 => by
    have : i < 1 := h2
    omega⟩

/-- A message with seven bits sent and room for one byte: the ENC that fits exactly (OUT_CAP = 2). -/
def openedLast : State := { openedCap 2 with bitCnt := 7, acc := 0x7F, accN := 7 }

theorem inv_openedLast : StateInv openedLast where
  params := by decide
  errCode := by decide
  errCmd := fun _ => rfl
  entries := entries_withAB _ _ (by decide) (entries_reset _)
  memWf := Memory.wf_nil
  memInside := fun c hc => by cases hc
  message := ⟨by decide, by decide, by decide, by decide, rfl, rfl, fun i h1 h2 => by
    have : i < 1 := h2
    omega⟩

/-- A finished message. -/
theorem inv_doneAaab : StateInv doneAaab where
  params := by decide
  errCode := by decide
  errCmd := fun _ => rfl
  entries := entries_withAB _ _ (by decide) (entries_reset _)
  memWf := by decide
  memInside := by decide
  message := ⟨rfl, rfl, by decide, by decide, rfl, by decide, by decide, by decide⟩

/-- A message whose first byte is written. -/
def openedTwoBytes : State := { opened with bitCnt := 8, outPtr := 2, outBuf := [(1, 0xFF)] }

theorem inv_openedTwoBytes : StateInv openedTwoBytes where
  params := by decide
  errCode := by decide
  errCmd := fun _ => rfl
  entries := entries_withAB _ _ (by decide) (entries_reset _)
  memWf := by decide
  memInside := by decide
  message := ⟨by decide, by decide, by decide, by decide, rfl, rfl, fun i h1 h2 => by
    have h3 : i < 2 := h2
    have : i = 1 := by omega
    subst this
    rfl⟩

/-- The table {'a' ↦ "1", 'b' ↦ "0"}. -/
theorem tableAB_wellFormed : TableWellFormed 255 [(0x61, [true]), (0x62, [false])] where
  isMap := by decide
  lengths := by decide
  bijective := by decide
  prefixFree := by decide

/-! ## Encoding -/

theorem witness_DecodeAndEncodeAgree : decode 0x00FF0003 = .ok (.load 0 255) := by decide

/-- Both ways to be illegal, at their boundaries. -/
theorem witness_IllegalWordsRaiseIllegal :
    (0x01000000 : Word).toNat / 2 ^ 24 ≠ 0 ∧ 8 ≤ (0x00000008 : Word).toNat % 2 ^ 8 ∧
      8 ≤ (0x000000FF : Word).toNat % 2 ^ 8 ∧ ¬ 8 ≤ (0x00000007 : Word).toNat % 2 ^ 8 := by decide

/-- Two CLEAR words, in a state where it records an error, and in one where it does not. -/
theorem witness_IgnoredFieldsHaveNoEffect :
    (Instr.clear 1 2).canonical = (Instr.clear 3 4).canonical ∧
      opened.errCode = .none ∧ (after (exec (.clear 1 2) opened)).errCode ≠ .none ∧
      ¬ (doneAaab.errCode = .none ∧ (after (exec (.clear 1 2) doneAaab)).errCode ≠ .none) ∧
      (0x01000002 : Word).toNat / 2 ^ 24 ≠ 0 := by decide +kernel

/-! ## A step -/

theorem witness_StepPerformsDecodedCommand :
    ({ State.reset with pending := [.write (0 + 4) 4 0x00000005] } : State).pending =
        .write (State.reset.params.base + 4) 4 0x00000005 :: [] ∧
      decode 0x00000005 = .ok (.begin 0 0) := by decide +kernel

theorem witness_StepWithNoEventOrAReadKeepsTheBlock :
    step State.reset = .next State.reset ∧ State.reset.pending = [] ∧
      isNext (step { State.reset with pending := [.read 0 4] }) = true := by
  refine ⟨rfl, rfl, ?_⟩
  decide +kernel

theorem witness_ParametersNeverChange : step State.reset = .next State.reset := rfl

theorem witness_NopChangesNothing :
    ((0x00FFFF00 : Word).toNat % 2 ^ 8 = 0 ∧ (0x00FFFF00 : Word).toNat / 2 ^ 24 = 0) ∧
      ((0x01000000 : Word).toNat % 2 ^ 8 = 0 ∧ (0x01000000 : Word).toNat / 2 ^ 24 ≠ 0) := by decide

theorem witness_HardwareResetGivesResetState :
    ({ doneAaab with pending := [.hwReset] } : State).pending = .hwReset :: [] := rfl

/-! ## The code-table commands -/

theorem witness_ClearInvalidatesEveryEntry : doneAaab.phase ≠ .enc ∧ opened.phase = .enc := by decide

/-- Lengths 1 and 255 load; 0, and 17 above a MAX_LEN of 16, do not; and in ENC none does. -/
theorem witness_LoadWritesOneEntry :
    State.reset.phase ≠ .enc ∧ 1 ≤ (1 : Len).toNat ∧ (1 : Len).toNat ≤ State.reset.params.maxLen.toNat ∧
      (255 : Len).toNat ≤ State.reset.params.maxLen.toNat ∧ opened.phase = .enc ∧ (0 : Len).toNat = 0 ∧
      ({ State.reset with params := ⟨4096, 16, 0⟩ } : State).params.maxLen.toNat < (17 : Len).toNat := by decide

/-- An invalid entry in R34's form. -/
theorem witness_ReadCopiesEntry :
    (State.reset.entry 0x61).Ok State.reset.params ∧ (State.reset.entry 0x61).valid = false ∧ 31 < 32 :=
  ⟨entries_reset _ _, by decide +kernel, by decide⟩

theorem witness_LoadThenReadGivesTheCodeBack :
    State.reset.phase ≠ .enc ∧ 1 ≤ (255 : Len).toNat ∧ (255 : Len).toNat ≤ State.reset.params.maxLen.toNat := by decide

theorem witness_CodeBitsReadMostSignificantFirst :
    2 < (⟨true, 3, 6⟩ : Entry).len.toNat ∧
      (⟨true, 3, 6⟩ : Entry).code.toNat < 2 ^ (⟨true, 3, 6⟩ : Entry).len.toNat := by decide

theorem witness_TableIsFixedDuringMessage :
    opened.phase = .enc ∧ (∀ a b, Instr.load 0x61 1 ≠ .sreset a b) ∧ ∃ sym len, Instr.load 0x61 1 = .load sym len :=
  ⟨rfl, (fun _ _ h => by cases h), 0x61, 1, rfl⟩

/-! ## The message commands -/

theorem witness_BeginOpensMessage : errNoCode.phase ≠ .enc ∧ opened.phase = .enc := by decide

/-- An ENC that fits with no byte to spare, and one state for each of the three errors. -/
theorem witness_EncAppendsTheCode :
    (StateInv openedLast ∧ openedLast.phase = .enc ∧ (openedLast.entry 0x61).valid = true ∧
      1 + (openedLast.bitCnt.toNat + (openedLast.entry 0x61).len.toNat + 7) / 8 ≤ openedLast.params.outCap.toNat) ∧
    doneAaab.phase ≠ .enc ∧ (opened.phase = .enc ∧ (opened.entry 0x7A).valid = false) ∧
    (let s := { openedCap 1 with bitCnt := 0 }
     s.phase = .enc ∧ (s.entry 0x61).valid = true ∧
      s.params.outCap.toNat < 1 + (s.bitCnt.toNat + (s.entry 0x61).len.toNat + 7) / 8) := by
  refine ⟨⟨inv_openedLast, rfl, ?_⟩, ?_⟩ <;> decide +kernel

theorem witness_FinishPadsAndCloses :
    (StateInv openedAaab ∧ openedAaab.phase = .enc ∧ 0 < openedAaab.accN.toNat) ∧ State.reset.phase ≠ .enc :=
  ⟨⟨inv_openedAaab, rfl, by decide⟩, by decide⟩

theorem witness_PaddingAfterFinish : StateInv openedAaab ∧ openedAaab.phase = .enc := ⟨inv_openedAaab, rfl⟩

/-- A message of an ENC between a NOP and a READ. -/
theorem witness_PackingLaw :
    doneAaab.params.Ok ∧ (∀ i ∈ [Instr.nop 0 0, .enc 0x61 0, .read 0x62 0], inMessage i = true) ∧
      (after (execAll ([.begin 0 0] ++ [.nop 0 0, .enc 0x61 0, .read 0x62 0] ++ [.finish 0 0]) doneAaab)).errCode =
        .none := by decide +kernel

theorem witness_EmptyMessageIsOneZeroByte : State.reset.phase ≠ .enc := by decide

/-- The table {'z' ↦ "0"} and nine 'z' (3.3). -/
theorem witness_SingleSymbolMessage :
    let s := setEntry 0x7A ⟨true, 1, 0⟩ State.reset
    s.params.Ok ∧ s.phase ≠ .enc ∧ 0 < 9 ∧ (s.entry 0x7A).valid = true ∧
      hostTable (List.replicate 9 0x7A) = some [(0x7A, (s.entry 0x7A).bits)] ∧
      1 + (9 + 7) / 8 ≤ s.params.outCap.toNat := by decide +kernel

/-! ## Errors -/

/-- A command for each cause, and one without. -/
theorem witness_FailingCommandsOnlyRecordTheFirstCause :
    causeOf (.finish 0 0) State.reset = some .state ∧ causeOf (.load 0x61 0) State.reset = some .badLen ∧
      causeOf (.enc 0x7A 0) opened = some .noCode ∧ causeOf (.enc 0x61 0) (openedCap 1) = some .overflow ∧
      causeOf (.enc 0x61 0) opened = none := by decide +kernel

theorem witness_LegalityTable :
    legalIn (.begin 0 0) opened.phase = false ∧
      (legalIn (.enc 0 0) errNoCode.phase = false ∧ errNoCode.phase = .err ∧ errNoCode.errCode ≠ .none) ∧
      (legalIn (.enc 0x61 0) opened.phase = true ∧ causeOf (.enc 0x61 0) opened = none ∧ opened.errCode = .none) := by
  decide +kernel

/-- An illegal word: the hypothesis of the clauses about illegal words (LegalityTable,
FailingCommandsOnlyRecordTheFirstCause, ErrorsArePrecise). -/
theorem witness_illegal_word (i : Instr) : decode 0x01000000 ≠ .ok i := by
  intro h
  have : decode 0x01000000 = .error (.reservedBits 1) := by decide
  rw [this] at h
  cases h

/-- ERR, with a command for each clause; for LOAD the shortest and the longest legal length,
and the illegal lengths 0 and, with MAX_LEN = 16, 17. -/
theorem witness_OnlyBeginAndSresetLeaveErr :
    errNoCode.phase = .err ∧ errNoCode.errCode ≠ .none ∧ (after (exec (.load 0x61 1) errNoCode)).phase = .err ∧
      1 ≤ (1 : Len).toNat ∧ (255 : Len).toNat ≤ errNoCode.params.maxLen.toNat ∧ (0 : Len).toNat = 0 ∧
      ({ errNoCode with params := ⟨4096, 16, 0⟩ } : State).params.maxLen.toNat < (17 : Len).toNat ∧
      (∃ a b, Instr.begin 0 0 = .begin a b) ∧ (∃ a b, Instr.sreset 0 0 = .sreset a b) ∧
      (∃ a b, Instr.nop 0 0 = .nop a b) ∧ (∃ a b, Instr.clear 0 0 = .clear a b) ∧
      ∃ a b, Instr.finish 0 0 = .finish a b :=
  ⟨rfl, by decide, by decide +kernel, by decide, by decide, rfl, by decide, ⟨0, 0, rfl⟩, ⟨0, 0, rfl⟩, ⟨0, 0, rfl⟩, ⟨0, 0, rfl⟩,
    ⟨0, 0, rfl⟩⟩

theorem witness_ErrorStaysUntilBeginOrSreset :
    errNoCode.phase = .err ∧ errNoCode.errCode ≠ .none ∧
      (∀ i ∈ [Instr.enc 0x61 0, .clear 0 0, .finish 0 0], ∀ a b, i ≠ .begin a b ∧ i ≠ .sreset a b) := by
  refine ⟨rfl, by decide, ?_⟩
  simp

theorem witness_DoneIsEnteredOnlyByFinish :
    let s := { openedAaab with pending := [.write 4 4 0x00000007] }
    isNext (step s) = true ∧ (after (step s)).phase = .done ∧ s.phase ≠ .done := by decide +kernel

theorem witness_ErrorsArePrecise :
    (decode 0x00006106 = .ok (.enc 0x61 0) ∧ causeOf (.enc 0x61 0) doneAaab ≠ none) ∧
      doneAaab.phase = .done ∧ 1 < doneAaab.outLen.toNat := by decide +kernel

/-! ## The host window -/

/-- Reserved offsets at both ends of both ranges, CMD, a read-only register, and the first and last OUT_BUF bytes. -/
theorem witness_ReservedAndReadOnlyOffsets :
    (0x034 % 4 = 0 ∧ 0x034 ≤ 0x034 ∧ 0x034 ≤ 0x03C) ∧ (0x03C % 4 = 0 ∧ 0x03C ≤ 0x03C) ∧
      (0x060 % 4 = 0 ∧ 0x060 ≤ 0xFFC) ∧ (0xFFC % 4 = 0 ∧ 0x060 ≤ 0xFFC) ∧
      0x030 ∈ [0x000, 0x008, 0x00C, 0x010, 0x014, 0x018, 0x01C, 0x020, 0x024, 0x028, 0x02C, 0x030] ∧
      (4 ∈ [1, 2, 4] ∧ 0x1FFC % 4 = 0 ∧ 0x1000 ≤ 0x1FFC ∧ 0x1FFC + 4 ≤ 0x1000 + State.reset.params.outCap.toNat) ∧
      (1 ∈ [1, 2, 4] ∧ 0x1000 + 1 ≤ 0x1000 + State.reset.params.outCap.toNat) := by decide

/-- Accepted accesses at the ends of the two regions, and refused ones just outside them. -/
theorem witness_BadAccessesFault :
    (0xFFC < 0x1000 ∧ 4 = 4 ∧ 0xFFC % 4 = 0) ∧ (0x1FFF + 1 ≤ 0x1000 + State.reset.params.outCap.toNat) ∧
      ¬ (0x1FFF + 2 ≤ 0x1000 + State.reset.params.outCap.toNat) ∧
      faultOf (step { State.reset with pending := [.read (0 + 0x1FFE) 4] }) = some (.badAccess 0x1FFE 4) ∧
      faultOf (step { State.reset with pending := [.write (0 + 0x004) 2 5] }) = some (.badAccess 0x004 2) := by
  decide +kernel

/-- The first and the last word, the last half word and the last byte of OUT_BUF. -/
theorem witness_BufferReadsAreLittleEndian :
    4 * 0 + 4 ≤ State.reset.params.outCap.toNat ∧ 4 * 1023 + 4 ≤ State.reset.params.outCap.toNat ∧ 3 < 4 ∧
      2 * 2047 + 2 ≤ State.reset.params.outCap.toNat ∧ 4095 < State.reset.params.outCap.toNat := by decide

theorem witness_HostReadsTheDefinedBytes :
    (StateInv doneAaab ∧ doneAaab.phase = .done ∧ 1 < doneAaab.outLen.toNat) ∧
      (StateInv openedTwoBytes ∧ openedTwoBytes.phase = .enc ∧ 1 ≤ 1 ∧ 1 < openedTwoBytes.outPtr.toNat) :=
  ⟨⟨inv_doneAaab, rfl, by decide⟩, inv_openedTwoBytes, rfl, Nat.le_refl 1, by decide⟩

/-- FINISH changes the header byte; the invariant does not look at `pending`. -/
theorem witness_OutBufIsWrittenOnlyByEncAndFinish :
    let s := { openedAaab with pending := [.write 4 4 0x00000007] }
    StateInv s ∧ isNext (step s) = true ∧ Memory.read (after (step s)).outBuf 0 ≠ Memory.read s.outBuf 0 := by
  refine ⟨⟨inv_openedAaab.params, inv_openedAaab.errCode, inv_openedAaab.errCmd, inv_openedAaab.entries,
    inv_openedAaab.memWf, inv_openedAaab.memInside,
    inv_openedAaab.message.congr rfl rfl ⟨rfl, rfl, rfl, rfl, rfl, rfl, rfl⟩⟩, ?_, ?_⟩ <;> decide +kernel

/-! ## The invariant -/

/-- The ends of R9's ranges. -/
theorem witness_InvariantHoldsAtReset :
    (⟨1, 1, 0⟩ : Params).Ok ∧ (⟨BitVec.ofNat 32 (2 ^ 32 - 4096), 255, 4096⟩ : Params).Ok := by decide

theorem witness_InvariantKeptByStep : StateInv openedAaab ∧ step openedAaab = .next openedAaab := ⟨inv_openedAaab, rfl⟩

/-! ## The reference functions and the round trip -/

theorem witness_DecodeInvertsCoding :
    TableWellFormed 255 [(0x61, [true]), (0x62, [false])] ∧
      ∀ e ∈ [((0x62 : Sym), [false]), (0x61, [true])], e ∈ [((0x61 : Sym), [true]), (0x62, [false])] :=
  ⟨tableAB_wellFormed, by decide⟩

theorem tableOf_doneAaab : tableOf doneAaab = [(0x61, [true]), (0x62, [false])] := by decide +kernel

theorem witness_RoundTrip :
    doneAaab.params.Ok ∧ doneAaab.phase ≠ .enc ∧
      TableWellFormed doneAaab.params.maxLen.toNat (tableOf doneAaab) ∧
      (∀ c ∈ [0x61, 0x62], (doneAaab.entry c).valid = true) ∧
      1 + ((messageBits doneAaab [0x61, 0x62]).length + 7) / 8 ≤ doneAaab.params.outCap.toNat := by
  refine ⟨by decide, by decide, ?_, by decide +kernel, by decide +kernel⟩
  rw [tableOf_doneAaab]
  exact tableAB_wellFormed

theorem witness_HuffmanTableIsWellFormed : [(0x61 : Sym)] ≠ [] := by decide

theorem witness_CanonicalRebuild :
    ([((0x61 : Sym), 3), (0x62, 1)] : FreqMap).Perm [(0x62, 1), (0x61, 3)] ∧
      (([((0x61 : Sym), 3), (0x62, 1)] : FreqMap).map Prod.fst).Nodup := ⟨List.Perm.swap .., by decide⟩

theorem witness_LdCodeLoadsTheCode :
    State.reset.phase ≠ .enc ∧ 1 ≤ (List.replicate 255 true).length ∧
      (List.replicate 255 true).length ≤ State.reset.params.maxLen.toNat := by decide +kernel

theorem witness_LdTableLoadsTheTable :
    State.reset.phase ≠ .enc ∧
      TableWellFormed State.reset.params.maxLen.toNat [(0x61, [true]), (0x62, [false])] :=
  ⟨by decide, tableAB_wellFormed⟩

/-- "ab" (2.8). -/
theorem witness_HostPipelineRoundTrip :
    Config.resetParams.Ok ∧ Config.resetParams.maxLen = 255 ∧
      hostTable [0x61, 0x62] = some [(0x61, [false]), (0x62, [true])] ∧
      1 + (([0x61, 0x62].flatMap (fun c => ([((0x61 : Sym), [false]), (0x62, [true])].lookup c).getD [])).length + 7) / 8 ≤
        Config.resetParams.outCap.toNat := by decide +kernel

end Sys2Proof.Tests
end

section
/-! PROOFS. One step of the machine: the command it performs (R13, R22, R64), the parameters it keeps (R9), and the
invariant of R41 at reset and across every event. -/

namespace Sys2Proof.Machine

/-- Settles O5: the event is the write that issues the word, and a legal word is performed as its command. -/
theorem stepPerformsDecodedCommand : Obligations.StepPerformsDecodedCommand := by
  intro s rest w i hpending hdecode
  rw [step, nextEvent_cmdWrite w rest s hpending, performWord, hdecode]

/-- Settles O8: a performed word keeps the parameters, and no other event touches them. -/
theorem parametersNeverChange : Obligations.ParametersNeverChange := by
  intro s t hstep
  obtain ⟨-, rfl⟩ | ⟨rest, ⟨_, _, _, -, rfl⟩ | ⟨w, -, hw⟩ | ⟨_, _, _, _, -, rfl⟩ | ⟨_, _, _, -, rfl⟩ | ⟨-, rfl⟩⟩ :=
    step_cases hstep
  case inr.inr.inl =>
    obtain ⟨t', ht', hworld⟩ := performWord_world w { s with pending := rest }
    rw [hw] at ht'
    cases ht'
    exact hworld.params
  all_goals rfl

/-! ## The invariant at reset -/

/-- The state after hardware reset meets the invariant (R42). -/
theorem stateInv_resetWith {p : Params} (hp : p.Ok) (epoch : Nat) : StateInv (State.resetWith p epoch) where
  params := hp
  errCode := by simp
  errCmd := fun _ => rfl
  entries sym := by
    rw [resetWith_entry]
    exact Entry.invalid_ok p
  memWf := Memory.wf_nil
  memInside := by simp
  message := ⟨rfl, rfl, rfl, rfl, rfl, rfl⟩

/-- Settles O38: the parameters of `State.reset` are in R9's ranges. -/
theorem invariantHoldsAtReset : Obligations.InvariantHoldsAtReset :=
  ⟨fun _ epoch hp => stateInv_resetWith hp epoch, stateInv_resetWith (by decide) 0⟩

/-! ## What the invariant asks of OUT_BUF and of the entries -/

/-- Every cell lies below a bound when every byte that can be read does. -/
theorem Memory.inside_iff_read {m : Memory} {bound : Nat} :
    (∀ c ∈ m, c.1 < bound) ↔ ∀ a, (Memory.read m a).isSome → a < bound := by
  constructor
  · intro h a ha
    obtain ⟨b, hb⟩ := Option.isSome_iff_exists.mp ha
    exact h _ (Memory.mem_of_read hb)
  · exact fun h c hc => h c.1 (Memory.read_of_mem hc)

/-- A length that LOAD accepts is 1 to MAX_LEN (R77). -/
theorem badLength_eq_false_iff {s : State} {len : Len} :
    badLength s len = false ↔ 1 ≤ len.toNat ∧ len ≤ s.params.maxLen := by
  simp only [badLength, Bool.or_eq_false_iff, decide_eq_false_iff_not, BitVec.not_lt, Nat.one_le_iff_ne_zero]
  exact and_congr_left fun _ => not_congr ⟨fun h => by simp [h], fun h => BitVec.eq_of_toNat_eq (by simpa using h)⟩

/-- The entry that a LOAD of an accepted length writes is a loaded entry of R41. -/
theorem loadedEntry_ok {s : State} {len : Len} (cd : BitVec 256) (hlen : badLength s len = false) :
    Entry.Ok s.params ⟨true, len, codeOperand cd len⟩ where
  cleared h := by cases h
  loaded _ :=
    have ⟨hpos, hmax⟩ := badLength_eq_false_iff.mp hlen
    ⟨hpos, hmax, codeOperand_lt cd len⟩

/-- A code has as many bits as its entry's length says (R35). -/
theorem Entry.length_bits (e : Entry) : e.bits.length = e.len.toNat := by simp [Entry.bits]

/-- ENC's capacity check passes exactly when the message still fits with the code's bits (R81). -/
theorem overflows_eq_false_iff {s : State} {len : Len} :
    overflows s len = false ↔ 1 + ceil8 (s.bitCnt.toNat + len.toNat) ≤ s.params.outCap.toNat := by
  simp [overflows]

/-- Appending bits that fit writes only below OUT_CAP (R52). -/
theorem appendBits_inside {s : State} (bs : Bits) (hopen : OpenShape s)
    (room : 1 + ceil8 (s.bitCnt.toNat + bs.length) ≤ s.params.outCap.toNat)
    (hinside : ∀ c ∈ s.outBuf, c.1 < s.params.outCap.toNat) :
    ∀ c ∈ (appendBits bs s).outBuf, c.1 < s.params.outCap.toNat := by
  obtain ⟨hopen', hcnt, -, hkeep⟩ := appendBits_open bs hopen room
  have hptr := hopen'.outPtr
  unfold ceil8 at room
  rw [Memory.inside_iff_read] at hinside ⊢
  intro a ha
  by_cases hnew : s.outPtr.toNat ≤ a ∧ a < (appendBits bs s).outPtr.toNat
  · omega
  · exact hinside a (hkeep a hnew ▸ ha)

/-- FINISH of an open message writes only below OUT_CAP (R52). -/
theorem finishMessage_inside {s : State} (hopen : OpenShape s)
    (hinside : ∀ c ∈ s.outBuf, c.1 < s.params.outCap.toNat) :
    ∀ c ∈ (finishMessage s).outBuf, c.1 < s.params.outCap.toNat := by
  obtain ⟨hN, hptr, -, hfits, -, -, -⟩ := hopen
  unfold ceil8 at hfits
  rw [Memory.inside_iff_read] at hinside ⊢
  intro a ha
  rw [finishMessage_read] at ha
  split_ifs at ha with hheader hlast
  · omega
  · -- the last byte is written only when bits are left in ACC
    have : s.accN.toNat ≠ 0 := fun h => hlast.1 (BitVec.eq_of_toNat_eq (by simpa using h))
    omega
  · exact hinside a ha

/-! ## The invariant across one event -/

/-- The invariant looks at neither the host, nor the staging registers, nor the reset counter. -/
theorem StateInv.congr {s t : State} (h : StateInv s) (hpar : t.params = s.params) (hstatus : SameStatus s t)
    (hct : t.ct = s.ct) (hm : SameMessage s t) : StateInv t where
  params := hpar ▸ h.params
  errCode := by rw [hstatus.errCode, hstatus.phase]; exact h.errCode
  errCmd := by rw [hstatus.errCmd, hstatus.phase]; exact h.errCmd
  entries sym := by rw [entry_congr hct, hpar]; exact h.entries sym
  memWf := hm.outBuf ▸ h.memWf
  memInside := by rw [hm.outBuf, hpar]; exact h.memInside
  message := h.message.congr hstatus.phase hpar hm

/-- Error entry keeps the invariant: ERR keeps the message registers of the state it is entered from (R41, R107). -/
theorem StateInv.raised {s : State} (h : StateInv s) {e : ErrCode} (he : e ≠ .none) (w : Word) :
    StateInv (s.raised e w) where
  params := h.params
  errCode := by
    rw [raised_errCode, raised_phase]
    split
    · exact iff_of_false he (not_not.mpr rfl)
    · exact iff_of_false ‹_› (not_not.mpr rfl)
  errCmd hp := absurd rfl hp
  entries := h.entries
  memWf := h.memWf
  memInside := h.memInside
  message := h.shape.imp (fun hr => { hr with }) (.imp (fun ho => { ho with }) (fun hd => { hd with }))

/-- New entries that are well formed keep the invariant (R41). -/
theorem StateInv.withTable {s : State} (h : StateInv s) (table : Vector Entry 256)
    (hentries : ∀ sym, ({ s with ct := table }.entry sym).Ok s.params) : StateInv { s with ct := table } :=
  { h with
    entries := hentries
    message := h.message.congr rfl rfl ⟨rfl, rfl, rfl, rfl, rfl, rfl, rfl⟩ }

theorem softReset_phase (s : State) : (softReset s).phase = .idle := rfl

theorem openMessage_phase (s : State) : (openMessage s).phase = .enc := rfl

/-- SRESET keeps the invariant: it leaves the registers and the table of reset, and OUT_BUF as it was (R75). -/
theorem StateInv.softReset {s : State} (h : StateInv s) : StateInv (softReset s) where
  params := h.params
  errCode := iff_of_true rfl (by simp [softReset_phase])
  errCmd _ := rfl
  entries sym := by
    rw [Machine.softReset, entry_invalidateTable]
    exact Entry.invalid_ok _
  memWf := h.memWf
  memInside := h.memInside
  message := ⟨rfl, rfl, rfl, rfl, rfl, rfl⟩

/-- BEGIN opens an empty message, for which the header's byte is room enough (R9, R80). -/
theorem openMessage_open {s : State} (hp : s.params.Ok) : OpenShape (openMessage s) where
  accN := rfl
  outPtr := by simp [openMessage, clearMessage]
  acc := Nat.zero_lt_one
  fits := by simpa [openMessage, clearMessage, leaveError, ceil8] using hp.1
  outLen := rfl
  pad := rfl
  written _ hpos hlt := absurd hlt (Nat.not_lt.mpr hpos)

/-- BEGIN keeps the invariant. -/
theorem StateInv.openMessage {s : State} (h : StateInv s) : StateInv (openMessage s) where
  params := h.params
  errCode := iff_of_true rfl (by simp [openMessage_phase])
  errCmd _ := rfl
  entries := h.entries
  memWf := h.memWf
  memInside := h.memInside
  message := openMessage_open h.params

/-- An ENC that fits keeps the invariant (R81). -/
theorem StateInv.appendBits {s : State} (h : StateInv s) (hp : s.phase = .enc) (bs : Bits)
    (room : 1 + ceil8 (s.bitCnt.toNat + bs.length) ≤ s.params.outCap.toNat) : StateInv (appendBits bs s) := by
  have hopen : OpenShape s := by simpa only [MessageShape, hp] using h.message
  obtain ⟨-, -, hct, hstatus, -, hworld⟩ := appendBits_frame bs s
  refine ⟨hworld.params ▸ h.params, ?_, ?_, fun sym => ?_, wf_appendBits bs s h.memWf, ?_, ?_⟩
  · rw [hstatus.errCode, hstatus.phase]
    exact h.errCode
  · rw [hstatus.errCmd, hstatus.phase]
    exact h.errCmd
  · rw [entry_congr hct, hworld.params]
    exact h.entries sym
  · rw [hworld.params]
    exact appendBits_inside bs hopen room h.memInside
  · simpa only [MessageShape, hstatus.phase, hp] using (appendBits_open bs hopen room).1

/-- FINISH of an open message keeps the invariant (R82). -/
theorem StateInv.finishMessage {s : State} (h : StateInv s) (hp : s.phase = .enc) : StateInv (finishMessage s) := by
  have hopen : OpenShape s := by simpa only [MessageShape, hp] using h.message
  have hdone : (Machine.finishMessage s).phase = .done := rfl
  have hnoErr : s.phase ≠ .err := by simp [hp]
  obtain ⟨-, hcode, hcmd, hct, -, hworld⟩ := finishMessage_frame s
  refine ⟨hworld.params ▸ h.params, ?_, fun _ => hcmd.trans (h.errCmd hnoErr), fun sym => ?_,
    wf_finishMessage s h.memWf, ?_, finishMessage_open hopen⟩
  · simp [hcode, hdone, h.errCode.mpr hnoErr]
  · rw [entry_congr hct, hworld.params]
    exact h.entries sym
  · rw [hworld.params]
    exact finishMessage_inside hopen h.memInside

/-- A command that succeeds keeps the invariant. -/
theorem StateInv.success {i : Instr} {s t : State} (h : StateInv s) (hi : Success i s t) : StateInv t := by
  cases i with
  | nop a b => cases hi; exact h
  | sreset a b => cases hi; exact h.softReset
  | clear a b =>
    obtain ⟨-, rfl⟩ := hi
    exact h.withTable _ fun sym => (entry_invalidateTable sym s).symm ▸ Entry.invalid_ok _
  | load sym len =>
    obtain ⟨-, hlen, rfl⟩ := hi
    refine h.withTable _ fun other => ?_
    have hread := entry_setEntry sym other ⟨true, len, codeOperand s.codeValue len⟩ s
    rw [setEntry] at hread
    rw [hread]
    split
    · exact loadedEntry_ok _ hlen
    · exact h.entries other
  | read sym b =>
    cases hi
    exact h.congr rfl ⟨rfl, rfl, rfl⟩ rfl ⟨rfl, rfl, rfl, rfl, rfl, rfl, rfl⟩
  | begin a b =>
    obtain ⟨-, rfl⟩ := hi
    exact h.openMessage
  | enc sym b =>
    obtain ⟨hp, -, hfits, rfl⟩ := hi
    refine h.appendBits hp _ ?_
    rw [Entry.length_bits]
    exact overflows_eq_false_iff.mp hfits
  | finish a b =>
    obtain ⟨hp, rfl⟩ := hi
    exact h.finishMessage hp

/-- Performing a word, legal or not, keeps the invariant. -/
theorem StateInv.performWord {w : Word} {s t : State} (h : StateInv s) (hw : performWord w s = .next t) :
    StateInv t := by
  obtain rfl | ⟨i, -, hi⟩ := performWord_cases hw
  · exact h.raised (by decide) w
  · obtain ⟨e, he, rfl⟩ | hs := exec_cases hi
    · exact h.raised he _
    · exact h.success hs

/-- Settles O39: every event of the outside world keeps the invariant. -/
theorem invariantKeptByStep : Obligations.InvariantKeptByStep := by
  intro s t h hstep
  -- an event that changes only CODE_DATA and the host's lists
  have hostOnly (data : Vector Word 8) (rest : List HostEvent) (got : List Word) :
      StateInv { s with codeData := data, pending := rest, received := got } :=
    h.congr rfl ⟨rfl, rfl, rfl⟩ rfl ⟨rfl, rfl, rfl, rfl, rfl, rfl, rfl⟩
  obtain ⟨-, rfl⟩ | ⟨rest, ⟨_, _, v, -, rfl⟩ | ⟨w, -, hw⟩ | ⟨_, _, v, k, -, rfl⟩ | ⟨_, _, _, -, rfl⟩ | ⟨-, rfl⟩⟩ :=
    step_cases hstep
  · exact h
  · exact hostOnly s.codeData rest (s.received ++ [v])
  · exact (hostOnly s.codeData rest s.received).performWord hw
  · exact hostOnly (s.codeData.set k.val v k.isLt) rest s.received
  · exact hostOnly s.codeData rest s.received
  · exact (stateInv_resetWith h.params (s.epoch + 1)).congr rfl ⟨rfl, rfl, rfl⟩ rfl
      ⟨rfl, rfl, rfl, rfl, rfl, rfl, rfl⟩

end Sys2Proof.Machine
end

section
/-! PROOFS. The reference table of R88: the merge loop keeps every leaf (R90), and no path of a tree goes on
from another one (R91, R93). -/

namespace Sys2Proof.Reference

/-! ## The paths of a tree -/

/-- The symbols of the leaves, left to right. -/
def Tree.syms : Tree → List Sym
  | .leaf s _ => [s]
  | .node l r _ => l.syms ++ r.syms

theorem Tree.syms_length_pos (t : Tree) : 0 < t.syms.length := by
  induction t with
  | leaf s w => exact Nat.zero_lt_one
  | node l r w ihl ihr =>
    rw [Tree.syms, List.length_append]
    omega

/-- The paths list every leaf once, left to right. -/
theorem Tree.paths_map_fst (t : Tree) (path : Bits) : (t.paths path).map Prod.fst = t.syms := by
  induction t generalizing path with
  | leaf s w => rfl
  | node l r w ihl ihr => rw [Tree.paths, List.map_append, ihl, ihr, Tree.syms]

/-- A leaf's path goes on from its subtree's. -/
theorem Tree.prefix_of_mem_paths {t : Tree} {path : Bits} {e : Sym × Bits} (he : e ∈ t.paths path) :
    path <+: e.2 := by
  induction t generalizing path with
  | leaf s w =>
    rw [Tree.paths, List.mem_singleton] at he
    rw [he]
  | node l r w ihl ihr =>
    rcases List.mem_append.mp he with hl | hr
    · exact (List.prefix_append _ _).trans (ihl hl)
    · exact (List.prefix_append _ _).trans (ihr hr)

/-- A path below a tree is shorter than the number of its leaves. -/
theorem Tree.length_lt_of_mem_paths {t : Tree} {path : Bits} {e : Sym × Bits} (he : e ∈ t.paths path) :
    e.2.length < path.length + t.syms.length := by
  induction t generalizing path with
  | leaf s w =>
    rw [Tree.paths, List.mem_singleton] at he
    rw [he]
    exact Nat.lt_succ_self _
  | node l r w ihl ihr =>
    have hl0 := l.syms_length_pos
    have hr0 := r.syms_length_pos
    rw [Tree.syms, List.length_append]
    rcases List.mem_append.mp he with hl | hr
    · have := ihl hl
      rw [List.length_append, List.length_singleton] at this
      omega
    · have := ihr hr
      rw [List.length_append, List.length_singleton] at this
      omega

/-- Neither of two codes goes on from the other. -/
def Incomparable (c d : Bits) : Prop := ¬ c <+: d ∧ ¬ d <+: c

/-- Codes that go on from two different codes of one length are incomparable. -/
theorem incomparable_of_prefix {c d c' d' : Bits} (hc : c <+: c') (hd : d <+: d') (hlen : c.length = d.length)
    (hne : c ≠ d) : Incomparable c' d' :=
  ⟨fun h => hne ((List.prefix_of_prefix_length_le (hc.trans h) hd hlen.le).eq_of_length hlen),
    fun h => hne ((List.prefix_of_prefix_length_le hc (hd.trans h) hlen.le).eq_of_length hlen)⟩

/-- No path of a tree goes on from another: two leaves part at the lowest node above both (R91). -/
theorem Tree.paths_incomparable (t : Tree) (path : Bits) :
    (t.paths path).Pairwise (fun e f => Incomparable e.2 f.2) := by
  induction t generalizing path with
  | leaf s w => exact List.pairwise_singleton _ _
  | node l r w ihl ihr =>
    refine List.pairwise_append.mpr ⟨ihl _, ihr _, fun e he f hf => ?_⟩
    exact incomparable_of_prefix (prefix_of_mem_paths he) (prefix_of_mem_paths hf) (by simp) (by simp)

theorem genCodes_map_fst (t : Tree) : (genCodes t).map Prod.fst = t.syms := by
  cases t with
  | leaf s w => rfl
  | node l r w => exact Tree.paths_map_fst _ _

/-- The table of a tree with at most 256 leaves, no symbol at two of them, is well formed (R93, R10). -/
theorem genCodes_wellFormed {t : Tree} (hnodup : t.syms.Nodup) (hsize : t.syms.length ≤ 256) :
    TableWellFormed 255 (genCodes t) := by
  have hmap : ((genCodes t).map Prod.fst).Nodup := by rwa [genCodes_map_fst]
  cases t with
  | leaf s w => exact ⟨hmap, by simp [genCodes], by simp [genCodes], by simp [genCodes]⟩
  | node l r w =>
    have hcode := Tree.paths_incomparable (.node l r w) []
    refine ⟨hmap, fun e he => ⟨?_, ?_⟩, List.pairwise_map.mpr (hcode.imp ?_), ?_⟩
    · -- one of the two edges below the root
      rcases List.mem_append.mp he with hl | hr
      · exact (Tree.prefix_of_mem_paths hl).length_le
      · exact (Tree.prefix_of_mem_paths hr).length_le
    · have := Tree.length_lt_of_mem_paths he
      rw [List.length_nil] at this
      omega
    · exact fun h heq => h.1 (heq ▸ List.prefix_rfl)
    · exact List.Pairwise.forall_of_forall_of_flip (R := fun e f => e.2 <+: f.2 → e.2 = f.2) (fun _ _ _ => rfl)
        (hcode.imp fun h hpre => absurd hpre h.1) (hcode.imp fun h hpre => absurd hpre h.2)

/-! ## The merge loop -/

/-- The symbols of the trees in a queue. -/
def queueSyms (q : List QItem) : List Sym := q.flatMap (fun x => x.tree.syms)

/-- A push only changes the order. -/
theorem pushQ_perm (x : QItem) (q : List QItem) : (pushQ x q).Perm (x :: q) := by
  induction q with
  | nil => exact .refl _
  | cons y q ih =>
    rw [pushQ]
    split
    · exact .refl _
    · exact (ih.cons y).trans (.swap x y q)

theorem queueSyms_pushQ_perm (x : QItem) (q : List QItem) :
    (queueSyms (pushQ x q)).Perm (x.tree.syms ++ queueSyms q) := (pushQ_perm x q).flatMap_right _

/-- The merge loop makes one tree of a queue that is not empty, with all its leaves, when the fuel allows a merge for
every element but one (R90). -/
theorem mergeQ_spec (fuel seq : Nat) (q : List QItem) (hne : q ≠ []) (hfuel : q.length ≤ fuel + 1) :
    ∃ t, mergeQ fuel seq q = some t ∧ t.syms.Perm (queueSyms q) := by
  induction fuel, seq, q using mergeQ.induct with
  | case1 fuel seq => exact absurd rfl hne
  | case2 fuel seq x => exact ⟨x.tree, by rw [mergeQ], by simp [queueSyms]⟩
  | case3 seq x y q => simp at hfuel
  | case4 fuel seq x y q ih =>
    have hpush := pushQ_perm ⟨.node x.tree y.tree (x.tree.weight + y.tree.weight), seq⟩ q
    obtain ⟨t, ht, hsyms⟩ := ih (fun h => by simpa [h] using hpush.length_eq)
      (by rw [hpush.length_eq]; simpa using hfuel)
    refine ⟨t, by rw [mergeQ, ht], hsyms.trans ?_⟩
    simpa [queueSyms, Tree.syms] using
      queueSyms_pushQ_perm ⟨.node x.tree y.tree (x.tree.weight + y.tree.weight), seq⟩ q

theorem foldl_pushQ_perm (items : List (Tree × Nat)) (q : List QItem) :
    (items.foldl (fun q l => pushQ ⟨l.1, l.2⟩ q) q).Perm (items.map (fun l => QItem.mk l.1 l.2) ++ q) := by
  induction items generalizing q with
  | nil => exact .refl _
  | cons l items ih => exact (ih _).trans (((pushQ_perm _ q).append_left _).trans List.perm_middle)

/-- The first queue holds the leaves (R90). -/
theorem initialQ_perm (ls : List Tree) :
    (initialQ ls).Perm (ls.zipIdx.map (fun l => QItem.mk l.1 l.2)) := by
  simpa [initialQ] using foldl_pushQ_perm ls.zipIdx []

theorem initialQ_length (ls : List Tree) : (initialQ ls).length = ls.length := by
  simpa using (initialQ_perm ls).length_eq

theorem queueSyms_initialQ_perm (ls : List Tree) :
    (queueSyms (initialQ ls)).Perm (ls.flatMap Tree.syms) := by
  refine ((initialQ_perm ls).flatMap_right _).trans (.of_eq ?_)
  rw [List.flatMap_map, ← List.flatMap_map (f := Prod.fst) (g := Tree.syms), List.zipIdx_map_fst]

/-- BuildTree of a map that is not empty makes one tree of all its leaves (R90). -/
theorem buildTree_spec (f : FreqMap) (hne : leavesOf f ≠ []) :
    ∃ t, buildTree f = some t ∧ t.syms.Perm ((leavesOf f).flatMap Tree.syms) := by
  have hlen := initialQ_length (leavesOf f)
  obtain ⟨t, ht, hsyms⟩ := mergeQ_spec (leavesOf f).length (leavesOf f).length (initialQ (leavesOf f))
    (fun h => hne (List.length_eq_zero_iff.mp (by rw [← hlen, h]; rfl))) (by omega)
  exact ⟨t, ht, hsyms.trans (queueSyms_initialQ_perm _)⟩

/-! ## The leaves of a frequency map -/

theorem mem_allSyms (c : Sym) : c ∈ allSyms :=
  List.mem_map.mpr ⟨c.toNat, List.mem_range.mpr c.isLt, by simp⟩

theorem length_allSyms : allSyms.length = 256 := by simp [allSyms]

theorem allSyms_nodup : allSyms.Nodup := by
  refine List.nodup_range.map_on fun a ha b hb h => ?_
  have := congrArg BitVec.toNat h
  rw [BitVec.toNat_ofNat, BitVec.toNat_ofNat] at this
  rw [List.mem_range] at ha hb
  omega

/-- The leaves are the symbols that have a count, ascending (R90). -/
theorem leavesOf_syms (f : FreqMap) :
    (leavesOf f).flatMap Tree.syms = allSyms.filter (fun c => (f.lookup c).isSome) := by
  unfold leavesOf
  induction allSyms with
  | nil => rfl
  | cons c cs ih =>
    rw [List.filterMap_cons, List.filter_cons]
    cases hc : f.lookup c with
    | none => simpa [hc] using ih
    | some w => simpa [hc, Tree.syms] using ih

/-- FreqCount has a count for exactly the symbols that occur (R89). -/
theorem freqCount_lookup_isSome (b : List Sym) (c : Sym) : ((freqCount b).lookup c).isSome ↔ c ∈ b := by
  rw [List.lookup_isSome_iff]
  simp [freqCount, mem_allSyms]

/-- The leaves of FreqCount's map are the symbols that occur. -/
theorem mem_leavesOf_freqCount (b : List Sym) (c : Sym) :
    c ∈ (leavesOf (freqCount b)).flatMap Tree.syms ↔ c ∈ b := by
  rw [leavesOf_syms, List.mem_filter, freqCount_lookup_isSome]
  exact and_iff_right (mem_allSyms c)

/-- Settles O44: the tree of a non-empty sequence has its symbols at the leaves, each once, and there are 256 symbols. -/
theorem huffmanTableIsWellFormed : Obligations.HuffmanTableIsWellFormed := by
  intro b hb
  obtain ⟨c, hc⟩ := List.exists_mem_of_ne_nil b hb
  have hne : leavesOf (freqCount b) ≠ [] := by
    intro h
    simpa [h] using (mem_leavesOf_freqCount b c).mpr hc
  obtain ⟨t, ht, hsyms⟩ := buildTree_spec (freqCount b) hne
  have hleaves := leavesOf_syms (freqCount b)
  have hnodup : t.syms.Nodup := hsyms.nodup_iff.mpr (hleaves ▸ allSyms_nodup.filter _)
  have hsize : t.syms.length ≤ 256 := by
    rw [hsyms.length_eq, hleaves, ← length_allSyms]
    exact List.length_filter_le _ _
  refine ⟨genCodes t, by rw [hostTable, ht, Option.map_some], genCodes_wellFormed hnodup hsize, fun sym => ?_⟩
  rw [genCodes_map_fst, hsyms.mem_iff, mem_leavesOf_freqCount]

end Sys2Proof.Reference
end

section
/-! PROOFS. The state of 10_state.md: the code of an entry (R35), the table while a message is open (R37), what the host
reads and writes of the registers (R20 to R33), and who writes OUT_BUF (R38, R39, R52). -/

namespace Sys2Proof.Machine

open Sys2Proof.Reference (bitsToNat)

/-! ## The code of an entry -/

/-- Reading the low bits of `x`, the highest first, after bits already read as `v`. -/
theorem foldl_testBit_range (x v n : Nat) :
    ((List.range n).reverse.map x.testBit).foldl (fun v b => 2 * v + b.toNat) v = v * 2 ^ n + x % 2 ^ n := by
  induction n generalizing v with
  | zero => simp [Nat.mod_one]
  | succ n ih =>
    rw [List.range_succ, List.reverse_append, List.reverse_singleton, List.singleton_append, List.map_cons,
      List.foldl_cons, ih, Nat.mod_pow_succ, Nat.toNat_testBit]
    ring

/-- The bits of an entry are the low L bits of its code value. -/
theorem bitsToNat_bits (e : Entry) : bitsToNat e.bits = e.code.toNat % 2 ^ e.len.toNat :=
  (foldl_testBit_range e.code.toNat 0 e.len.toNat).trans (by rw [Nat.zero_mul, Nat.zero_add])

/-- The first-emitted bit is C[L-1] (R35). -/
theorem Entry.getElem?_bits (e : Entry) {i : Nat} (hi : i < e.len.toNat) :
    e.bits[i]? = some (e.code.getLsbD (e.len.toNat - 1 - i)) := by
  rw [Entry.bits, List.getElem?_map, List.getElem?_reverse (by simpa using hi), List.length_range,
    List.getElem?_range (by omega), Option.map_some]

/-- Settles O16: the bits are those of C from C[L-1] down, and a C below 2^L has no others. -/
theorem codeBitsReadMostSignificantFirst : Obligations.CodeBitsReadMostSignificantFirst := fun e =>
  ⟨e.length_bits, fun _ hi => e.getElem?_bits hi, fun hlt => (bitsToNat_bits e).trans (Nat.mod_eq_of_lt hlt)⟩

/-! ## The table while a message is open -/

/-- CLEAR of an open message raises STATE (R76). -/
theorem exec_clear_of_enc {s : State} (hp : s.phase = .enc) (a : Sym) (b : Len) :
    exec (.clear a b) s = .next (s.raised .state (encode (.clear a b))) := if_pos hp

/-- LOAD during an open message raises STATE, whatever its length (R77, R105). -/
theorem exec_load_of_enc {s : State} (hp : s.phase = .enc) (sym : Sym) (len : Len) :
    exec (.load sym len) s = .next (s.raised .state (encode (.load sym len))) := if_pos hp

/-- In an open message a command other than SRESET that succeeds keeps the table: CLEAR and LOAD do not succeed there. -/
theorem Success.ct_of_enc {i : Instr} {s t : State} (h : Success i s t) (hp : s.phase = .enc)
    (hi : ∀ a b, i ≠ .sreset a b) : t.ct = s.ct := by
  cases i with
  | nop a b => cases h; rfl
  | sreset a b => exact absurd rfl (hi a b)
  | clear a b => exact absurd hp h.1
  | load sym len => exact absurd hp h.1
  | read sym b => cases h; rfl
  | begin a b => exact absurd hp h.1
  | enc sym b =>
    obtain ⟨-, -, -, rfl⟩ := h
    exact (appendBits_frame _ s).2.2.1
  | finish a b =>
    obtain ⟨-, rfl⟩ := h
    exact (finishMessage_frame s).2.2.2.1

/-- Settles O17: error entry keeps the table, and so does every command but SRESET that succeeds in ENC. -/
theorem tableIsFixedDuringMessage : Obligations.TableIsFixedDuringMessage := by
  intro i s hp hi
  obtain ⟨t, ht, -⟩ := exec_world i s
  refine ⟨t, ht, ?_, ?_⟩
  · obtain ⟨e, -, rfl⟩ | hs := exec_cases ht
    · exact raised_ct e (encode i) s
    · exact hs.ct_of_enc hp hi
  · rintro (⟨a, b, rfl⟩ | ⟨sym, len, rfl⟩)
    · rw [exec_clear_of_enc hp] at ht
      cases ht
      rfl
    · rw [exec_load_of_enc hp] at ht
      cases ht
      rfl

/-! ## The registers in the host window -/

/-- A 32-bit read of a register's offset answers the register's value, the block unchanged (R53). -/
theorem hostAct_regRead (r : Reg) (s : State) :
    hostAct (.read (s.params.base + r.offset) 4) s = .next { s with received := s.received ++ [readReg s r] } := by
  simp only [hostAct, withTarget_add, targetAt_reg, readTarget]

/-- No register's value depends on what the host will do next. -/
theorem readReg_pending (r : Reg) (s : State) (rest : List HostEvent) :
    readReg { s with pending := rest } r = readReg s r := by
  cases r <;> rfl

/-- The step that takes a host read of a register. -/
theorem step_regRead (r : Reg) (s : State) (rest : List HostEvent) :
    step { s with pending := .read (s.params.base + r.offset) 4 :: rest } =
      .next { s with pending := rest, received := s.received ++ [readReg s r] } := by
  rw [← readReg_pending r s rest]
  exact hostAct_regRead r { s with pending := rest }

/-- STATE in bits 1:0 and ERRCODE in bits 7:4 (R23). -/
theorem toNat_statusWord (s : State) : (statusWord s).toNat = s.phase.bits.toNat + 16 * s.errCode.bits.toNat := by
  have := s.phase.bits.isLt
  have := s.errCode.bits.isLt
  simp only [statusWord, BitVec.toNat_ofNat]
  omega

/-- ACC in bits 7:0 and ACC_N in bits 10:8 (R29). -/
theorem toNat_accWord (s : State) : (accWord s).toNat = s.acc.toNat + 256 * s.accN.toNat := by
  have := s.acc.isLt
  have := s.accN.isLt
  simp only [accWord, BitVec.toNat_ofNat]
  omega

/-- LEN in bits 7:0 and VALID in bit 8 (R32). -/
theorem toNat_rdLenWord (s : State) : (rdLenWord s).toNat = s.rdLen.toNat + 256 * s.rdValid.toNat := by
  have := s.rdLen.isLt
  have := Bool.toNat_le s.rdValid
  simp only [rdLenWord, BitVec.toNat_ofNat]
  omega

/-- Settles O31: each offset of R20's table names its register, whose value is the number its fields make. -/
theorem registersReadAsMapped : Obligations.RegistersReadAsMapped := by
  intro s rest reads
  have hreads (r : Reg) {v : Nat} (hv : (readReg s r).toNat = v) : reads r.offset v := ⟨_, hv, step_regRead r s rest⟩
  refine ⟨hreads .id rfl, hreads .cmd rfl, hreads .status ?status, hreads .errCmd rfl, hreads .bitCntLo ?bitCntLo,
    hreads .bitCntHi ?bitCntHi, hreads .outPtr rfl, hreads .outLen rfl, hreads .pad ?pad, hreads .acc (toNat_accWord s),
    hreads .cap rfl, hreads .cfg ?cfg, hreads .rdLen (toNat_rdLenWord s), fun k => hreads (.codeData k) rfl⟩
  case status =>
    exact (toNat_statusWord s).trans (congrArg₂ (fun state code => state + 16 * code)
      (by cases s.phase <;> rfl) (by cases s.errCode <;> rfl))
  case bitCntLo => exact BitVec.extractLsb'_toNat ..
  case bitCntHi =>
    have := s.bitCnt.isLt
    simp only [readReg, BitVec.extractLsb'_toNat, Nat.shiftRight_eq_div_pow]
    omega
  case pad => exact BitVec.toNat_setWidth_of_le (by decide)
  case cfg => exact BitVec.toNat_setWidth_of_le (by decide)

/-! ## CODE_DATA under a host write -/

/-- A word of CODE_DATA reads as just written, every other word as before. -/
theorem codeData_setCodeWord (k j : Fin 8) (v : Word) (s : State) :
    (setCodeWord k v s).codeData[j] = if k = j then v else s.codeData[j] := by
  simp [setCodeWord, Vector.getElem_set, Fin.ext_iff]

/-- Lane `k` of the 256-bit value is word `k` (R33). -/
theorem codeValue_extractLsb' (s : State) (k : Fin 8) : s.codeValue.extractLsb' (32 * k.val) 32 = s.codeData[k] := by
  apply BitVec.eq_of_getLsbD_eq
  intro j hj
  have hdiv : (32 * k.val + j) / 32 = k.val := by omega
  have hmod : (32 * k.val + j) % 32 = j := by omega
  rw [BitVec.getLsbD_extractLsb', codeValue_getLsbD s _ (by omega)]
  simp [hdiv, hmod, hj]

/-- A host write of CODE_DATA[k] stores the word, in every state (R33, R125). -/
theorem hostAct_codeDataWrite (k : Fin 8) (v : Word) (s : State) :
    hostAct (.write (s.params.base + (Reg.codeData k).offset) 4 v) s = .next (setCodeWord k v s) := by
  simp only [hostAct, withTarget_add, targetAt_reg, writeTarget]

/-- Settles O36: the step stores the word in CODE_DATA, and lane k of the 256-bit value is that word. -/
theorem codeDataWriteSetsOneWord : Obligations.CodeDataWriteSetsOneWord := by
  intro s rest v k
  have hword (j : Fin 8) := codeData_setCodeWord k j v { s with pending := rest }
  rw [Nat.add_assoc]
  refine ⟨_, hostAct_codeDataWrite k v { s with pending := rest }, ?_, fun j hj => ?_, ?_, rfl⟩
  · rw [hword, if_pos rfl]
  · rw [hword, if_neg hj.symm]
  · rw [codeValue_extractLsb', hword, if_pos rfl]

/-! ## The defined bytes of OUT_BUF -/

/-- Where the spec lets the host rely on a byte it reads the stored one (R39). -/
theorem hostByte_of_defined {s : State} {i : Nat} {b : Byte} (hdef : definedByte s i = true)
    (hread : Memory.read s.outBuf i = some b) : hostByte s i = b := by
  simp only [hostByte, hdef, hread]

/-- The reply to a 1-byte read is the byte with zeros above (log 12). -/
theorem readBuf_one (s : State) (i : Nat) : readBuf s i 1 = (hostByte s i).setWidth 32 := by
  simp [readBuf, lanes, BitVec.ofNat_toNat]

/-- In a state that meets the invariant the bytes of an open message and of a finished payload are defined, written, and
inside OUT_BUF (R39, R41). -/
theorem StateInv.read_of_inRange {s : State} (h : StateInv s) {i : Nat}
    (hi : (s.phase = .done ∧ i < s.outLen.toNat) ∨ (s.phase = .enc ∧ 1 ≤ i ∧ i < s.outPtr.toNat)) :
    ∃ b, Memory.read s.outBuf i = some b ∧ definedByte s i = true ∧ i < s.params.outCap.toNat := by
  have hmsg := h.message
  have hread : definedByte s i = true ∧ (Memory.read s.outBuf i).isSome := by
    rcases hi with ⟨hp, hlt⟩ | ⟨hp, hpos, hlt⟩ <;> simp only [MessageShape, hp] at hmsg
    · exact ⟨by simp [definedByte, hp, hlt], hmsg.written i hlt⟩
    · exact ⟨by simp [definedByte, hp, hpos, hlt], hmsg.written i hpos hlt⟩
  obtain ⟨hdef, hsome⟩ := hread
  obtain ⟨b, hb⟩ := Option.isSome_iff_exists.mp hsome
  exact ⟨b, hb, hdef, Memory.inside_iff_read.mp h.memInside i hsome⟩

/-- Settles O35: the byte is stored and defined, and a 1-byte read of it is an accepted access. -/
theorem hostReadsTheDefinedBytes : Obligations.HostReadsTheDefinedBytes := by
  intro s rest i h hi
  obtain ⟨b, hb, hdef, hlt⟩ := h.read_of_inRange hi
  have hbyte : hostByte { s with pending := rest } i = b := hostByte_of_defined hdef hb
  have hact := hostAct_bufRead i 1 { s with pending := rest } (.inl rfl) hlt
  rw [readBuf_one, hbyte] at hact
  rw [Nat.add_assoc]
  exact ⟨b, hb, hact⟩

/-! ## Who writes OUT_BUF -/

/-- A byte that differs between two memories lies below every bound that both lie below. -/
theorem Memory.lt_of_read_ne {m m' : Memory} {bound a : Nat} (hm : ∀ c ∈ m, c.1 < bound)
    (hm' : ∀ c ∈ m', c.1 < bound) (hne : Memory.read m' a ≠ Memory.read m a) : a < bound := by
  rw [Memory.inside_iff_read] at hm hm'
  by_contra hge
  have hnone : Memory.read m a = none := Option.not_isSome_iff_eq_none.mp (mt (hm a) hge)
  have hnone' : Memory.read m' a = none := Option.not_isSome_iff_eq_none.mp (mt (hm' a) hge)
  exact hne (hnone'.trans hnone.symm)

/-- A command that succeeds and changes an OUT_BUF byte is an ENC, and then not at the header, or a FINISH (R126). -/
theorem Success.enc_or_finish_of_read_ne {i : Instr} {s t : State} (h : Success i s t) (hinv : StateInv s) {a : Nat}
    (hne : Memory.read t.outBuf a ≠ Memory.read s.outBuf a) :
    (∃ sym x, i = .enc sym x ∧ 1 ≤ a) ∨ ∃ c d, i = .finish c d := by
  cases i with
  | nop b c => cases h; exact absurd rfl hne
  | sreset b c => cases h; exact absurd rfl hne
  | clear b c => obtain ⟨-, rfl⟩ := h; exact absurd rfl hne
  | load sym len => obtain ⟨-, -, rfl⟩ := h; exact absurd rfl hne
  | read sym b => cases h; exact absurd rfl hne
  | begin b c => obtain ⟨-, rfl⟩ := h; exact absurd rfl hne
  | enc sym x =>
    obtain ⟨hp, -, hfits, rfl⟩ := h
    have hopen : OpenShape s := by simpa only [MessageShape, hp] using hinv.message
    have room := overflows_eq_false_iff.mp hfits
    rw [← Entry.length_bits] at room
    obtain ⟨-, -, -, hkeep⟩ := appendBits_open _ hopen room
    -- ENC writes from OUT_PTR on, which is at least 1 in an open message
    have hwritten := not_imp_comm.mp (hkeep a) hne
    have hptr := hopen.outPtr
    exact .inl ⟨sym, x, rfl, by omega⟩
  | finish c d => exact .inr ⟨c, d, rfl⟩

/-- Settles O37: the invariant before and after the step keeps the byte below OUT_CAP, and among the events only a
hardware reset and a command that succeeds touch OUT_BUF. -/
theorem outBufIsWrittenOnlyByEncAndFinish : Obligations.OutBufIsWrittenOnlyByEncAndFinish := by
  intro s t h hstep a hne
  have hinside := (invariantKeptByStep s t h hstep).memInside
  rw [parametersNeverChange s t hstep] at hinside
  have hlt := Memory.lt_of_read_ne h.memInside hinside hne
  obtain ⟨-, rfl⟩ | ⟨rest, ⟨_, _, _, -, rfl⟩ | ⟨w, hpending, hw⟩ | ⟨_, _, _, _, -, rfl⟩ | ⟨_, _, _, -, rfl⟩ |
    ⟨hreset, -⟩⟩ := step_cases hstep
  case inr.inr.inl =>
    obtain rfl | ⟨i, hdecode, hi⟩ := performWord_cases hw
    · exact absurd rfl hne
    obtain ⟨e, -, rfl⟩ | hs := exec_cases hi
    · exact absurd rfl hne
    have hinv : StateInv { s with pending := rest } :=
      h.congr rfl ⟨rfl, rfl, rfl⟩ rfl ⟨rfl, rfl, rfl, rfl, rfl, rfl, rfl⟩
    refine .inr ⟨w, rest, hpending, hlt, ?_⟩
    obtain ⟨sym, x, rfl, hpos⟩ | ⟨c, d, rfl⟩ := hs.enc_or_finish_of_read_ne hinv hne
    · exact .inl ⟨sym, x, hdecode, hpos⟩
    · exact .inr ⟨c, d, hdecode⟩
  case inr.inr.inr.inr.inr => exact .inl ⟨rest, hreset⟩
  all_goals exact absurd rfl hne

end Sys2Proof.Machine
end

section
/-! PROOFS. The host window (20_memory.md): commands in the host's order, reads and idle steps, the reserved and read-only
offsets, the accesses R49 accepts, and OUT_BUF reads as little-endian views. -/

namespace Sys2Proof.Machine

/-! ## Commands in host order -/

/-- A command's word decodes to that command (R61, R64). -/
theorem decode_encode (i : Instr) : decode (encode i) = .ok i := by
  cases i <;> simp [decode, encode]

/-- Writing a command's word performs the command (R22, R64). -/
theorem performWord_encode (i : Instr) (s : State) : performWord (encode i) s = exec i s := by
  rw [performWord, decode_encode]

/-- `s` with another list of what the host will do next. -/
def State.withPending (s : State) (p : List HostEvent) : State := { s with pending := p }

section withPending
variable (s : State) (p : List HostEvent)

/-- Appending a bit does not look at what the host will do next. -/
theorem appendBit_withPending (b : Bool) : appendBit (s.withPending p) b = (appendBit s b).withPending p := by
  by_cases hfull : s.accN.toNat + 1 = 8 <;> simp only [appendBit, State.withPending, hfull, reduceIte]
  rfl

/-- Appending bits does not look at what the host will do next. -/
theorem appendBits_withPending (bs : Bits) : appendBits bs (s.withPending p) = (appendBits bs s).withPending p := by
  induction bs generalizing s with
  | nil => rfl
  | cons b bs ih => rw [appendBits_cons, appendBits_cons, appendBit_withPending, ih]

/-- FINISH's last byte does not depend on what the host will do next. -/
theorem flushAcc_withPending : flushAcc (s.withPending p) = (flushAcc s).withPending p := by
  by_cases h : s.accN = 0
  · rw [flushAcc_of_zero h, flushAcc_of_zero (s := s.withPending p) h]
  · rw [flushAcc_of_pos h, flushAcc_of_pos (s := s.withPending p) h]
    rfl

/-- Closing a message does not look at what the host will do next. -/
theorem finishMessage_withPending : finishMessage (s.withPending p) = (finishMessage s).withPending p := by
  have hflush := flushAcc_withPending { s with pad := BitVec.ofNat 3 (padCount s.bitCnt.toNat) } p
  simp only [State.withPending] at hflush
  simp only [finishMessage, State.withPending, hflush]
  rfl

end withPending

section outcome
variable {p : List HostEvent} {t : State}

/-- Two answered states that differ in the host's list alone. -/
theorem next_withPending {u u' : State} (h : u' = u.withPending p) :
    (.next u : Host.Outcome State Fault Refusal) = .next t →
      (.next u' : Host.Outcome State Fault Refusal) = .next (t.withPending p) := by
  rintro ⟨⟩
  rw [h]

/-- A condition decides between two outcomes, each the same whatever the host will do next. -/
theorem ite_withPending {c : Prop} [Decidable c] {a a' b b' : Host.Outcome State Fault Refusal}
    (ha : a = .next t → a' = .next (t.withPending p)) (hb : b = .next t → b' = .next (t.withPending p)) :
    (if c then a else b) = .next t → (if c then a' else b') = .next (t.withPending p) := by
  by_cases h : c
  · simpa only [if_pos h] using ha
  · simpa only [if_neg h] using hb

end outcome

/-- A command does the same whatever the host will do next. -/
theorem exec_withPending {i : Instr} {s t : State} (p : List HostEvent) :
    exec i s = .next t → exec i (s.withPending p) = .next (t.withPending p) := by
  cases i with
  | nop | sreset | read => exact next_withPending rfl
  | clear | begin => exact ite_withPending (next_withPending rfl) (next_withPending rfl)
  | load =>
    exact ite_withPending (next_withPending rfl) (ite_withPending (next_withPending rfl) (next_withPending rfl))
  | enc =>
    exact ite_withPending (next_withPending rfl) (ite_withPending (next_withPending rfl)
      (ite_withPending (next_withPending rfl) (next_withPending (appendBits_withPending s p _))))
  | finish => exact ite_withPending (next_withPending rfl) (next_withPending (finishMessage_withPending s p))

/-- The host's writes that issue a list of commands (R13). -/
def commandWrites (p : Params) (is : List Instr) : List HostEvent := is.map (fun i => cmdWrite p (encode i))

/-- A command write at the head of the host's list is performed as one step (R22). -/
theorem step_commandWrites_cons (i : Instr) (is : List Instr) (rest : List HostEvent) (s : State) :
    step (s.withPending (commandWrites s.params (i :: is) ++ rest)) =
      exec i (s.withPending (commandWrites s.params is ++ rest)) := by
  rw [← performWord_encode]
  exact nextEvent_cmdWrite (encode i) _ _ rfl

/-- A run whose first step answers `t` goes on from `t`. -/
theorem run_succ_of_step {s t : State} (h : step s = .next t) (k : Nat) :
    Sys2Proof.core.run (k + 1) s = Sys2Proof.core.run k t := by
  have hstep : Sys2Proof.core.step s = .next t := h
  simp only [Host.Core.run, hstep]

/-- Settles O6, by induction on the commands: each step performs the head command, which keeps BASE and the rest of the
host's list. -/
theorem commandsRunInHostOrder : Obligations.CommandsRunInHostOrder := by
  intro is rest s
  induction is generalizing s with
  | nil => rfl
  | cons i is ih =>
    obtain ⟨t, ht, hworld⟩ := exec_world i s
    have hstep := (step_commandWrites_cons i is rest s).trans (exec_withPending _ ht)
    have hexec : execAll (i :: is) (s.withPending rest) = execAll is (t.withPending rest) := by
      rw [execAll, exec_withPending rest ht]
    have htail : Sys2Proof.core.run is.length (t.withPending (commandWrites t.params is ++ rest)) =
        execAll is (t.withPending rest) := ih t
    rw [hworld.params] at htail
    exact (run_succ_of_step hstep is.length).trans (htail.trans hexec.symm)

/-! ## Idle steps and reads -/

/-- Settles O7: of the cases of a step, only idling has no event and only a read takes a read. -/
theorem stepWithNoEventOrAReadKeepsTheBlock : Obligations.StepWithNoEventOrAReadKeepsTheBlock := by
  intro s t hstep
  refine ⟨fun hnone => ?_, fun addr n rest hread => ?_⟩
  · rw [step, nextEvent, hnone] at hstep
    cases hstep
    rfl
  · obtain ⟨hp, -⟩ | ⟨rest', ⟨addr', n', v, hp, rfl⟩ | ⟨_, hp, -⟩ | ⟨_, _, _, _, hp, -⟩ | ⟨_, _, _, hp, -⟩ | ⟨hp, -⟩⟩ :=
      step_cases hstep <;> rw [hread] at hp <;> cases hp
    exact ⟨v, rfl⟩

/-! ## Steps that take a host access -/

/-- The step that takes an accepted host read. -/
theorem step_read {s : State} {off n : Nat} {tgt : Target} (rest : List HostEvent)
    (h : targetAt s.params.outCap.toNat off n = some tgt) :
    step { s with pending := .read (s.params.base + off) n :: rest } =
      .next { s with pending := rest, received := s.received ++ [readTarget { s with pending := rest } n tgt] } := by
  have hact := withTarget_add off n { s with pending := rest }
    (fun t => .next { s with pending := rest, received := s.received ++ [readTarget { s with pending := rest } n t] })
  simp only [h] at hact
  exact hact

/-- The step that takes an accepted host write. -/
theorem step_write {s : State} {off n : Nat} {tgt : Target} (rest : List HostEvent) (v : Word)
    (h : targetAt s.params.outCap.toNat off n = some tgt) :
    step { s with pending := .write (s.params.base + off) n v :: rest } = writeTarget v { s with pending := rest } tgt := by
  have hact := withTarget_add off n { s with pending := rest } (writeTarget v { s with pending := rest })
  simp only [h] at hact
  exact hact

/-- The steps that take a refused host access. -/
theorem step_badAccess {s : State} {off n : Nat} (rest : List HostEvent) (v : Word)
    (h : targetAt s.params.outCap.toNat off n = none) :
    step { s with pending := .read (s.params.base + off) n :: rest } = .fault (.badAccess off n) ∧
      step { s with pending := .write (s.params.base + off) n v :: rest } = .fault (.badAccess off n) := by
  have hact := withTarget_add off n { s with pending := rest }
  simp only [h] at hact
  exact ⟨hact _, hact _⟩

/-! ## Reserved and read-only offsets -/

/-- No register lies at a reserved offset (R20). -/
theorem regAt_reserved {off : Nat} (h : (0x034 ≤ off ∧ off ≤ 0x03C) ∨ (0x060 ≤ off ∧ off ≤ 0xFFC)) :
    regAt off = none := by
  simp only [regAt, List.find?_eq_none, beq_iff_eq]
  intro r _
  cases r <;> simp only [Reg.offset] <;> omega

/-- A 32-bit access at an aligned reserved offset names nothing (R50). -/
theorem targetAt_reserved (outCap : Nat) {off : Nat} (halign : off % 4 = 0)
    (h : (0x034 ≤ off ∧ off ≤ 0x03C) ∨ (0x060 ≤ off ∧ off ≤ 0xFFC)) : targetAt outCap off 4 = some .reserved := by
  rw [targetAt, if_pos (by simp only [bufOffset]; omega), if_pos ⟨rfl, halign⟩, regAt_reserved h]

/-- The registers a host write does not change (R20, R50). -/
def Reg.readOnly : List Reg :=
  [.id, .status, .errCmd, .bitCntLo, .bitCntHi, .outPtr, .outLen, .pad, .acc, .cap, .cfg, .rdLen]

/-- A write to a read-only register is ignored (R50). -/
theorem writeTarget_readOnly {r : Reg} (hr : r ∈ Reg.readOnly) (v : Word) (s : State) :
    writeTarget v s (.reg r) = .next s := by
  cases r with
  | cmd | codeData => simp [Reg.readOnly] at hr
  | _ => rfl

/-- Settles O32: a reserved offset names nothing and reads 0, CMD reads 0, and the writes named are ignored. -/
theorem reservedAndReadOnlyOffsets : Obligations.ReservedAndReadOnlyOffsets := by
  intro s rest v off reserved
  refine ⟨?_, ?_, fun n hn halign hlo hhi => ?_⟩
  · rintro (⟨halign, hrange⟩ | rfl)
    · exact step_read rest (targetAt_reserved _ halign hrange)
    · exact step_regRead .cmd s rest
  · rintro (⟨halign, hrange⟩ | hmem)
    · exact step_write rest v (targetAt_reserved _ halign hrange)
    · obtain ⟨r, hr, rfl⟩ := List.mem_map.mp (show off ∈ Reg.readOnly.map Reg.offset from hmem)
      rw [step_write rest v (targetAt_reg _ r), writeTarget_readOnly hr]
  · obtain ⟨i, rfl⟩ := Nat.exists_eq_add_of_le hlo
    have hwidth : n = 1 ∨ n = 2 ∧ i % 2 = 0 ∨ n = 4 ∧ i % 4 = 0 := by
      simp only [List.mem_cons, List.not_mem_nil, or_false] at hn
      rcases hn with rfl | rfl | rfl <;> omega
    exact step_write rest v (targetAt_buf _ i n hwidth (by omega))

/-! ## Accepted accesses -/

/-- The three access widths, each at its own alignment (R49). -/
theorem alignedWidth_iff (off n : Nat) :
    (n = 1 ∨ n = 2 ∨ n = 4) ∧ off % n = 0 ↔ n = 1 ∨ n = 2 ∧ off % 2 = 0 ∨ n = 4 ∧ off % 4 = 0 := by
  constructor
  · rintro ⟨rfl | rfl | rfl, halign⟩ <;> omega
  · rintro (rfl | ⟨rfl, halign⟩ | ⟨rfl, halign⟩) <;> omega

/-- What R49 accepts is what names a target. -/
theorem targetAt_isSome_iff (outCap off n : Nat) :
    (targetAt outCap off n).isSome ↔
      (off < 0x1000 ∧ n = 4 ∧ off % 4 = 0) ∨
        (0x1000 ≤ off ∧ (n = 1 ∨ n = 2 ∧ off % 2 = 0 ∨ n = 4 ∧ off % 4 = 0) ∧ off + n ≤ 0x1000 + outCap) := by
  have hwidth := alignedWidth_iff off n
  by_cases hoff : off < bufOffset
  · by_cases hreg : n = 4 ∧ off % 4 = 0
    · rw [targetAt, if_pos hoff, if_pos hreg]
      cases regAt off <;> exact iff_of_true rfl (.inl ⟨hoff, hreg⟩)
    · rw [targetAt, if_pos hoff, if_neg hreg]
      simp only [bufOffset] at hoff
      exact iff_of_false Bool.false_ne_true (by omega)
  · by_cases hbuf : (n = 1 ∨ n = 2 ∨ n = 4) ∧ off % n = 0 ∧ off + n ≤ bufOffset + outCap
    · rw [targetAt, if_neg hoff, if_pos hbuf]
      simp only [bufOffset] at hoff hbuf
      exact iff_of_true rfl (by omega)
    · rw [targetAt, if_neg hoff, if_neg hbuf]
      simp only [bufOffset] at hoff hbuf
      exact iff_of_false Bool.false_ne_true (by omega)

/-- An accepted host write always answers a next state (R53). -/
theorem writeTarget_next (v : Word) (s : State) (tgt : Target) : ∃ t, writeTarget v s tgt = .next t := by
  cases tgt with
  | reg r =>
    cases r with
    | cmd => exact (performWord_world v s).imp fun _ h => h.1
    | _ => exact ⟨_, rfl⟩
  | reserved | buf => exact ⟨_, rfl⟩

/-- Settles O33: an access is accepted exactly when it names a target. -/
theorem badAccessesFault : Obligations.BadAccessesFault := by
  intro s rest v off n accepted
  have hiff : (targetAt s.params.outCap.toNat off n).isSome ↔ accepted := targetAt_isSome_iff ..
  rw [← hiff]
  refine ⟨fun hsome => ?_, fun hnone => step_badAccess rest v (Option.not_isSome_iff_eq_none.mp hnone)⟩
  obtain ⟨tgt, htgt⟩ := Option.isSome_iff_exists.mp hsome
  rw [step_read rest htgt, step_write rest v htgt]
  exact ⟨⟨_, rfl⟩, writeTarget_next v _ tgt⟩

/-! ## OUT_BUF reads -/

/-- Bytes in little-endian lanes make a number below 256 to their count. -/
theorem lanes_lt (bs : List Byte) : lanes bs < 256 ^ bs.length := by
  induction bs with
  | nil => decide
  | cons b bs ih =>
    have := b.isLt
    simp only [lanes, List.length_cons, Nat.pow_succ]
    omega

/-- Lane `j` holds byte `j` (R47). -/
theorem lanes_div_mod (bs : List Byte) {j : Nat} (hj : j < bs.length) :
    lanes bs / 256 ^ j % 256 = bs[j].toNat := by
  induction bs generalizing j with
  | nil => cases hj
  | cons b bs ih =>
    have := b.isLt
    cases j with
    | zero => simp only [lanes, List.getElem_cons_zero]; omega
    | succ j =>
      have htail : lanes (b :: bs) / 256 = lanes bs := by simp only [lanes]; omega
      rw [Nat.pow_succ', ← Nat.div_div_eq_div_mul, htail]
      exact ih (Nat.lt_of_succ_lt_succ hj)

/-- A reply of at most four bytes is the number its lanes make, no bit lost (R51). -/
theorem toNat_readBuf (s : State) (i : Nat) {n : Nat} (hn : n ≤ 4) :
    (readBuf s i n).toNat = lanes ((List.range n).map (fun j => hostByte s (i + j))) := by
  have hlt := lanes_lt ((List.range n).map (fun j => hostByte s (i + j)))
  rw [List.length_map, List.length_range] at hlt
  exact Nat.mod_eq_of_lt (hlt.trans_le (Nat.pow_le_pow_right (by decide) hn))

/-- Bits 8j+7 to 8j of a reply are byte `j` of it (R47). -/
theorem readBuf_extractLsb' (s : State) (i : Nat) {n j : Nat} (hn : n ≤ 4) (hj : j < n) :
    (readBuf s i n).extractLsb' (8 * j) 8 = hostByte s (i + j) := by
  apply BitVec.eq_of_toNat_eq
  have hlane := lanes_div_mod ((List.range n).map (fun j => hostByte s (i + j))) (j := j) (by simpa using hj)
  rw [BitVec.extractLsb'_toNat, toNat_readBuf s i hn, Nat.shiftRight_eq_div_pow, Nat.pow_mul]
  simpa using hlane

/-- The step that takes an accepted OUT_BUF read (R51). -/
theorem step_bufRead {i n : Nat} {s : State} (rest : List HostEvent)
    (hn : n = 1 ∨ n = 2 ∧ i % 2 = 0 ∨ n = 4 ∧ i % 4 = 0) (hi : i + n ≤ s.params.outCap.toNat) :
    step { s with pending := .read (s.params.base + 0x1000 + i) n :: rest } =
      .next { s with pending := rest, received := s.received ++ [readBuf s i n] } := by
  rw [Nat.add_assoc]
  exact step_read rest (targetAt_buf _ i n hn hi)

/-- Settles O34: the reply's number is what its lanes make, and each lane is the byte a 1-byte read answers. -/
theorem bufferReadsAreLittleEndian : Obligations.BufferReadsAreLittleEndian := by
  intro s rest
  have hbyte (i : Nat) (hi : i < s.params.outCap.toNat) :
      step { s with pending := .read (s.params.base + 0x1000 + i) 1 :: rest } =
        .next { s with pending := rest, received := s.received ++ [(hostByte s i).setWidth 32] } := by
    rw [step_bufRead rest (.inl rfl) hi, readBuf_one]
  refine ⟨fun m hm => ⟨readBuf s (4 * m) 4, step_bufRead rest (by omega) hm, ?_, fun j hj => ?_⟩,
    fun m hm => ⟨readBuf s (2 * m) 2, step_bufRead rest (by omega) hm, ?_⟩, hbyte⟩
  · rw [toNat_readBuf s _ (by decide)]
    simp only [List.range_succ, List.range_zero, List.nil_append, List.cons_append, List.map_cons, List.map_nil, lanes,
      Nat.add_zero]
    omega
  · rw [readBuf_extractLsb' s _ (by decide) hj, hbyte _ (by omega)]
  · rw [toNat_readBuf s _ (by decide)]
    simp only [List.range_succ, List.range_zero, List.nil_append, List.cons_append, List.map_cons, List.map_nil, lanes,
      Nat.add_zero]
    omega

end Sys2Proof.Machine
end

section
/-! PROOFS. The command word (30_encoding.md): decode and encode are inverse (R61, R64), the illegal words (R69), and
the fields a command does not use (R68). -/

namespace Sys2Proof.Machine

/-! ## Decode and encode -/

/-- The opcode of every command is one of R63's eight. -/
theorem opcodeOf_lt (i : Instr) : (opcodeOf i).toNat < 8 := by cases i <;> simp [opcodeOf]

/-- The word of every command has the command's opcode and RSV = 0 (R61, R63). -/
theorem encode_fields (i : Instr) : Laws.EncodeFields.Statement i := by
  cases i <;> exact ⟨opField_packWord .., rsvField_packWord ..⟩

theorem toNat_opField (w : Word) : (opField w).toNat = w.toNat % 2 ^ 8 := by
  simp [opField]

theorem toNat_rsvField (w : Word) : (rsvField w).toNat = w.toNat / 2 ^ 24 := by
  have := w.isLt
  simp only [rsvField, BitVec.extractLsb'_toNat, Nat.shiftRight_eq_div_pow]
  omega

/-- The word of a command whose opcode and operands are those of a word with RSV = 0 is that word. -/
theorem encode_of_fields {w : Word} {i : Instr} (hrsv : rsvField w = 0) (hop : (opField w).toNat = (opcodeOf i).toNat)
    (hi : encode i = packWord (lenField w) (symField w) (opcodeOf i)) : encode i = w := by
  rw [hi, ← BitVec.eq_of_toNat_eq hop, packWord_fields w hrsv]

/-- Every word that decodes to a command is the word of that command: no bit is dropped (R61, R64). -/
theorem encode_of_decode {w : Word} {i : Instr} (h : decode w = .ok i) : encode i = w := by
  unfold decode at h
  split at h
  · cases h
  · rename_i hrsv
    have hrsv := not_not.mp hrsv
    split at h <;> cases h <;> exact encode_of_fields hrsv ‹_› rfl

/-- Settles O1: a packed word shows its fields, and a word with RSV = 0 is packed from its fields. -/
theorem decodeAndEncodeAgree : Obligations.DecodeAndEncodeAgree :=
  ⟨decode_encode, fun _ _ => encode_of_decode⟩

/-- Settles O3: each word is the word of its command. -/
theorem writtenOutWordsDecode : Obligations.WrittenOutWordsDecode :=
  ⟨decode_encode (.nop 0 0), decode_encode (.sreset 0 0), decode_encode (.clear 0 0), decode_encode (.load 0x62 3),
    decode_encode (.read 0x62 0), decode_encode (.begin 0 0), decode_encode (.enc 0x61 0), decode_encode (.finish 0 0),
    decode_encode (.nop 0xFF 0xFF), decode_encode (.read 0x62 0xAB), decode_encode (.finish 0xFF 0xFF)⟩

/-! ## Illegal words -/

/-- A word with RSV = 0 and OP below 8 decodes to a command (R64). -/
theorem decode_of_legal {w : Word} (hrsv : rsvField w = 0) (hop : (opField w).toNat < 8) :
    ∃ i, decode w = .ok i := by
  simp only [decode, hrsv, ne_eq, not_true_eq_false, if_false]
  interval_cases (opField w).toNat <;> exact ⟨_, rfl⟩

/-- A word is a command's exactly when its RSV is 0 and its OP is below 8 (R64, R69). -/
theorem exists_decode_iff (w : Word) : (∃ i, decode w = .ok i) ↔ w.toNat / 2 ^ 24 = 0 ∧ w.toNat % 2 ^ 8 < 8 := by
  rw [← toNat_rsvField, ← toNat_opField]
  constructor
  · rintro ⟨i, hi⟩
    obtain ⟨hop, hrsv⟩ := encode_fields i
    rw [encode_of_decode hi] at hop hrsv
    exact ⟨congrArg BitVec.toNat hrsv, hop ▸ opcodeOf_lt i⟩
  · exact fun ⟨hrsv, hop⟩ => decode_of_legal (BitVec.eq_of_toNat_eq hrsv) hop

/-- The words of R69 are those that decode to no command. -/
theorem illegal_iff (w : Word) :
    (w.toNat / 2 ^ 24 ≠ 0 ∨ 8 ≤ w.toNat % 2 ^ 8) ↔ ∀ i : Instr, decode w ≠ .ok i := by
  rw [← not_exists, exists_decode_iff, not_and_or, Nat.not_lt]

/-- Performing a word that decodes to no command raises ILLEGAL (R69). -/
theorem performWord_of_illegal {w : Word} (h : ∀ i : Instr, decode w ≠ .ok i) (s : State) :
    performWord w s = .next (s.raised .illegal w) := by
  cases hw : decode w with
  | ok i => exact absurd hw (h i)
  | error e => rw [performWord, hw, raise]

/-- Settles O2: the step performs the written word, which decodes to no command. -/
theorem illegalWordsRaiseIllegal : Obligations.IllegalWordsRaiseIllegal := by
  intro w s rest
  refine ⟨illegal_iff w, fun h => ?_⟩
  exact (nextEvent_cmdWrite w rest _ rfl).trans (performWord_of_illegal ((illegal_iff w).mp h) _)

/-! ## Fields a command does not use -/

/-- What a command leaves when it raises no error, by command. -/
def effect : Instr → State → State
  | .nop _ _, s => s
  | .sreset _ _, s => softReset s
  | .clear _ _, s => invalidateTable s
  | .load sym len, s => setEntry sym ⟨true, len, codeOperand s.codeValue len⟩ s
  | .read sym _, s => stageEntry (s.entry sym) s
  | .begin _ _, s => openMessage s
  | .enc sym _, s => appendBits (s.entry sym).bits s
  | .finish _ _, s => finishMessage s

/-- LOAD's length check fails exactly when the length is 0 or above MAX_LEN (R77). -/
theorem badLength_iff (s : State) (len : Len) :
    badLength s len = true ↔ len.toNat = 0 ∨ s.params.maxLen.toNat < len.toNat := by
  rw [← Bool.not_eq_false, badLength_eq_false_iff, BitVec.le_def]
  omega

/-- ENC's capacity check fails exactly when the message with the code does not fit (R81). -/
theorem overflows_iff (s : State) (len : Len) :
    overflows s len = true ↔ 1 + (s.bitCnt.toNat + len.toNat + 7) / 8 > s.params.outCap.toNat := by
  rw [← Bool.not_eq_false, overflows_eq_false_iff, ceil8, Nat.not_le]

/-- A command raises its cause with its own word, and has its effect when it has none (R102, R105, R106). -/
theorem exec_eq (i : Instr) (s : State) :
    exec i s = .next (match causeOf i s with
      | some e => s.raised e (encode i)
      | none => effect i s) := by
  cases i with
  | nop | sreset | read => rfl
  | clear | begin | finish =>
    by_cases hp : s.phase = .enc <;>
      simp [exec, execClear, execBegin, execFinish, causeOf, legalIn, hp, raise, effect]
  | load sym len =>
    simp only [exec, execLoad, badLength_iff, causeOf, legalIn, raise]
    by_cases hp : s.phase = .enc
    · simp [hp]
    · by_cases hl : len.toNat = 0 ∨ s.params.maxLen.toNat < len.toNat <;> simp [hp, hl, effect]
  | enc sym ilen =>
    simp only [exec, execEnc, overflows_iff, causeOf, legalIn, raise]
    by_cases hp : s.phase = .enc
    · by_cases hv : (s.entry sym).valid = false
      · simp [hp, hv]
      · by_cases ho : 1 + (s.bitCnt.toNat + (s.entry sym).len.toNat + 7) / 8 > s.params.outCap.toNat <;>
          simp [hp, hv, ho, effect]
    · simp [hp]

/-- The cause of a command does not depend on the fields it does not use. -/
theorem causeOf_canonical (i : Instr) (s : State) : causeOf i.canonical s = causeOf i s := by cases i <;> rfl

/-- The effect of a command does not depend on the fields it does not use. -/
theorem effect_canonical (i : Instr) (s : State) : effect i.canonical s = effect i s := by cases i <;> rfl

/-- A command that raises no error records none. -/
theorem effect_errCode {s : State} (h : s.errCode = .none) (i : Instr) : (effect i s).errCode = .none := by
  cases i with
  | nop | clear | load | read => exact h
  | sreset | begin => rfl
  | enc sym =>
    obtain ⟨-, -, -, hstatus, -⟩ := appendBits_frame (s.entry sym).bits s
    exact hstatus.errCode.trans h
  | finish =>
    obtain ⟨-, herr, -⟩ := finishMessage_frame s
    exact herr.trans h

/-- With an error recorded, error entry does not look at the word (R106). -/
theorem raised_word_of_recorded {s : State} (h : s.errCode ≠ .none) (e : ErrCode) (v w : Word) :
    s.raised e v = s.raised e w := by
  simp only [State.raised, if_neg h]

/-- No command raises the cause "no error". -/
theorem causeOf_ne_none (i : Instr) (s : State) : causeOf i s ≠ some .none := by
  cases i with
  | load | enc => simp only [causeOf]; split_ifs <;> simp
  | nop | sreset | clear | read | begin | finish => simp [causeOf]

/-- Settles O4: the cause and the effect of a command are those of its canonical form; only error entry
sees its word. -/
theorem ignoredFieldsHaveNoEffect : Obligations.IgnoredFieldsHaveNoEffect := by
  refine ⟨fun i j s hij => ⟨_, _, exec_eq i s, exec_eq j s, ?_⟩, fun w i hrsv => (illegal_iff w).mp (.inl hrsv) i⟩
  rw [← causeOf_canonical i, ← effect_canonical i, hij, causeOf_canonical j, effect_canonical j]
  cases hcause : causeOf j s with
  | none => exact ⟨rfl, fun hnone hsome => absurd (effect_errCode hnone j) hsome, fun _ => rfl⟩
  | some e =>
    have hrecords (hnone : s.errCode = .none) : (s.raised e (encode i)).errCode ≠ .none := by
      rw [raised_errCode, if_pos hnone]
      exact fun he => causeOf_ne_none j s (he ▸ hcause)
    exact ⟨rfl, fun hnone _ => ⟨if_pos hnone, if_pos hnone⟩,
      fun h => raised_word_of_recorded (fun hnone => h ⟨hnone, hrecords hnone⟩) e _ _⟩

end Sys2Proof.Machine
end

section
/-! PROOFS. Loading codes: READ after LOAD (R77, R78), and the accesses of LDCODE and LDTABLE (R66, R73, R122). -/

namespace Sys2Proof.Machine

open Sys2Proof.Reference (CodeTable TableWellFormed bitsToNat allSyms tableOf mem_allSyms)

/-! ## READ after LOAD -/

/-- LOAD of a legal length outside ENC writes the entry (R77). -/
theorem exec_load_of_legal {s : State} {len : Len} (hp : s.phase ≠ .enc) (hpos : 1 ≤ len.toNat)
    (hmax : len.toNat ≤ s.params.maxLen.toNat) (sym : Sym) :
    exec (.load sym len) s = .next (setEntry sym ⟨true, len, codeOperand s.codeValue len⟩ s) := by
  have hlen : badLength s len = false := badLength_eq_false_iff.mpr ⟨hpos, hmax⟩
  simp only [exec, execLoad, hp, hlen, if_false, Bool.false_eq_true]

/-- LOAD's code value is CODE_DATA modulo 2^L (R67): it fits the 255 bits of C. -/
theorem toNat_codeOperand (cd : BitVec 256) (len : Len) :
    (codeOperand cd len).toNat = cd.toNat % 2 ^ len.toNat := by
  have hlt : cd.toNat % 2 ^ len.toNat < 2 ^ len.toNat := Nat.mod_lt _ (Nat.two_pow_pos _)
  have hwidth : 2 ^ len.toNat ≤ 2 ^ 255 := Nat.pow_le_pow_right (by decide) (by omega)
  rw [codeOperand, BitVec.toNat_ofNat, Nat.mod_eq_of_lt (hlt.trans_le hwidth)]

/-- READ makes CODE_DATA hold the code value (R78). -/
theorem toNat_codeValue_stageEntry (e : Entry) (s : State) : (stageEntry e s).codeValue.toNat = e.code.toNat := by
  have hvalue : (stageEntry e s).codeValue = e.code.setWidth 256 := codeValue_setCodeValue _ s
  rw [hvalue, BitVec.toNat_setWidth_of_le (by decide)]

/-- Settles O15: READ stages the entry that LOAD has just written. -/
theorem loadThenReadGivesTheCodeBack : Obligations.LoadThenReadGivesTheCodeBack := by
  intro sym len x s hp hpos hmax
  let e : Entry := ⟨true, len, codeOperand s.codeValue len⟩
  refine ⟨stageEntry e (setEntry sym e s), ?_, ?_, ?_⟩
  · rw [execAll, exec_load_of_legal hp hpos hmax]
    simp only [execAll, exec, execRead, entry_setEntry, if_true, e]
  · rw [toNat_codeValue_stageEntry, toNat_codeOperand]
  · rw [toNat_rdLenWord]
    exact Nat.add_comm _ _

/-! ## Accesses run one after another -/

/-- A run of `m + k` steps is `k` steps from where `m` steps lead. -/
theorem run_add (M : Host.Core) {m : Nat} {s t : M.State} (h : M.run m s = .next t) (k : Nat) :
    M.run (m + k) s = M.run k t := by
  induction m generalizing s with
  | zero =>
    cases h
    rw [Nat.zero_add]
  | succ m ih =>
    rw [Nat.succ_add]
    cases hstep : M.step s with
    | next u =>
      simp only [Host.Core.run, hstep] at h ⊢
      exact ih h
    | fault r | refused r => simp [Host.Core.run, hstep] at h

/-- The host accesses `evs` lead from `s` to `t`, whatever the host does after them. -/
def Performs (evs : List HostEvent) (s t : State) : Prop :=
  ∀ rest, Sys2Proof.core.run evs.length (s.withPending (evs ++ rest)) = .next (t.withPending rest)

theorem performs_nil (s : State) : Performs [] s s := fun _ => rfl

/-- Accesses are performed in the host's order (R55). -/
theorem Performs.append {as bs : List HostEvent} {s t u : State} (ha : Performs as s t) (hb : Performs bs t u) :
    Performs (as ++ bs) s u := by
  intro rest
  rw [List.length_append, List.append_assoc]
  exact (run_add _ (ha (bs ++ rest)) bs.length).trans (hb rest)

/-- One access is performed in one step. -/
theorem performs_singleton {e : HostEvent} {s t : State}
    (h : ∀ rest, step (s.withPending (e :: rest)) = .next (t.withPending rest)) : Performs [e] s t :=
  fun rest => run_succ_of_step (h rest) 0

/-- The write of a command's word performs the command (R22). -/
theorem performs_command {i : Instr} {s t : State} (h : exec i s = .next t) :
    Performs [cmdWrite s.params (encode i)] s t :=
  performs_singleton fun rest => (step_commandWrites_cons i [] rest s).trans (exec_withPending rest h)

/-- A write of CODE_DATA[k] stores the word (R33). -/
theorem performs_codeDataWrite (k : Fin 8) (v : Word) (s : State) :
    Performs [.write (s.params.base + (Reg.codeData k).offset) 4 v] s (setCodeWord k v s) :=
  performs_singleton fun rest => step_write rest v (targetAt_reg _ (.codeData k))

/-! ## The accesses of LDCODE -/

/-- A program of one line makes the accesses of its expansion (R73). -/
theorem assemble_singleton (p : Params) (outLen : Nat) (line : Line) :
    assemble p outLen [line] = (line.expand outLen).flatMap (Line.access p) := by
  simp [assemble]

/-- `t` is `s` but for CODE_DATA and the code table: the frame of the loading macros. -/
def LoadFrame (s t : State) : Prop := ∃ cd table, t = { s with codeData := cd, ct := table }

section LoadFrame
variable {s t u : State}

theorem LoadFrame.refl (s : State) : LoadFrame s s := ⟨_, _, rfl⟩

theorem LoadFrame.trans (hst : LoadFrame s t) (htu : LoadFrame t u) : LoadFrame s u := by
  obtain ⟨_, _, rfl⟩ := hst
  obtain ⟨_, _, rfl⟩ := htu
  exact ⟨_, _, rfl⟩

theorem LoadFrame.params (h : LoadFrame s t) : t.params = s.params := by
  obtain ⟨_, _, rfl⟩ := h
  rfl

theorem LoadFrame.sameStatus (h : LoadFrame s t) : SameStatus s t := by
  obtain ⟨_, _, rfl⟩ := h
  exact ⟨rfl, rfl, rfl⟩

theorem LoadFrame.sameMessage (h : LoadFrame s t) : SameMessage s t := by
  obtain ⟨_, _, rfl⟩ := h
  exact ⟨rfl, rfl, rfl, rfl, rfl, rfl, rfl⟩

theorem loadFrame_setCodeWord (k : Fin 8) (v : Word) (s : State) : LoadFrame s (setCodeWord k v s) := ⟨_, _, rfl⟩

theorem loadFrame_setEntry (sym : Sym) (e : Entry) (s : State) : LoadFrame s (setEntry sym e s) := ⟨_, _, rfl⟩

theorem loadFrame_invalidateTable (s : State) : LoadFrame s (invalidateTable s) := ⟨_, _, rfl⟩

end LoadFrame

/-- The writes of the low `n` words of `v` to CODE_DATA. -/
def codeDataWrites (p : Params) (v : BitVec 256) (n : Nat) : List HostEvent :=
  (List.range n).map fun w => .write (p.base + (0x040 + 4 * w)) 4 (v.extractLsb' (32 * w) 32)

/-- LDCODE writes the words of the code to CODE_DATA, then LOADs (R73). -/
theorem access_expandLdCode (p : Params) (sym : Sym) (code : Bits) :
    (expandLdCode sym code).flatMap (Line.access p) =
      codeDataWrites p (BitVec.ofNat 256 (bitsToNat code)) ((code.length - 1) / 32 + 1) ++
        [cmdWrite p (encode (.load sym (BitVec.ofNat 8 code.length)))] := by
  have hzip (n : Nat) : (List.range n).zipIdx = (List.range n).map fun w => (w, w) :=
    List.ext_getElem (by simp) (by simp)
  rw [codeDataWrites, List.map_eq_flatMap]
  simp [expandLdCode, codeWords, List.zipIdx_map, hzip, List.flatMap_map, Line.access]

/-- After the writes the low `n` words of CODE_DATA are those of `v`. -/
theorem performs_codeDataWrites (v : BitVec 256) (s : State) {n : Nat} (hn : n ≤ 8) :
    ∃ t, Performs (codeDataWrites s.params v n) s t ∧ LoadFrame s t ∧ t.ct = s.ct ∧
      ∀ k : Fin 8, k.val < n → t.codeData[k] = v.extractLsb' (32 * k.val) 32 := by
  induction n with
  | zero => exact ⟨s, performs_nil s, .refl s, rfl, fun k hk => absurd hk (Nat.not_lt_zero _)⟩
  | succ n ih =>
    obtain ⟨t, hperf, hframe, hct, hwords⟩ := ih (by omega)
    have hstep := performs_codeDataWrite ⟨n, hn⟩ (v.extractLsb' (32 * n) 32) t
    rw [hframe.params] at hstep
    refine ⟨setCodeWord ⟨n, hn⟩ (v.extractLsb' (32 * n) 32) t, ?_, hframe.trans (loadFrame_setCodeWord ..), hct,
      fun k hk => ?_⟩
    · rw [codeDataWrites, List.range_succ, List.map_append]
      exact hperf.append hstep
    · rw [codeData_setCodeWord]
      obtain hlt | heq := Nat.lt_succ_iff_lt_or_eq.mp hk
      · rw [if_neg (fun h => by subst h; exact hlt.false), hwords k hlt]
      · rw [if_pos (Fin.ext heq.symm), heq]

/-! ## The code that LDCODE loads -/

theorem bitsToNat_append_singleton (bs : Bits) (b : Bool) :
    bitsToNat (bs ++ [b]) = 2 * bitsToNat bs + b.toNat := by
  simp [bitsToNat]

theorem bitsToNat_lt (bs : Bits) : bitsToNat bs < 2 ^ bs.length := by
  induction bs using List.reverseRecOn with
  | nil => decide
  | append_singleton bs b ih =>
    have := Bool.toNat_le b
    rw [bitsToNat_append_singleton, List.length_append, List.length_singleton, Nat.pow_succ]
    omega

theorem bitsToNat_lt_of_length_le {bs : Bits} {n : Nat} (h : bs.length ≤ n) : bitsToNat bs < 2 ^ n :=
  (bitsToNat_lt bs).trans_le (Nat.pow_le_pow_right (by decide) h)

/-- LEN holds the length of a code of at most 255 bits (R65). -/
theorem toNat_ofNat_length {code : Bits} (h : code.length ≤ 255) : (BitVec.ofNat 8 code.length).toNat = code.length :=
  Nat.mod_eq_of_lt (by omega)

/-- Two bit sequences of one length that read as the same integer are equal. -/
theorem eq_of_bitsToNat_eq {as bs : Bits} (hlen : as.length = bs.length) (h : bitsToNat as = bitsToNat bs) :
    as = bs := by
  induction as using List.reverseRecOn generalizing bs with
  | nil => exact (List.length_eq_zero_iff.mp hlen.symm).symm
  | append_singleton as a ih =>
    obtain rfl | ⟨bs, b, rfl⟩ := bs.eq_nil_or_concat'
    · simp at hlen
    · rw [bitsToNat_append_singleton, bitsToNat_append_singleton] at h
      have := Bool.toNat_le a
      have := Bool.toNat_le b
      have hbit : a.toNat = b.toNat := by omega
      rw [ih (by simpa using hlen) (by omega), ← Bool.ofNat_toNat a, hbit, Bool.ofNat_toNat]

/-- The entry that holds a code (R34, R35). -/
def codeEntry (code : Bits) : Entry := ⟨true, BitVec.ofNat 8 code.length, BitVec.ofNat 255 (bitsToNat code)⟩

@[simp] theorem codeEntry_valid (code : Bits) : (codeEntry code).valid = true := rfl

/-- The entry of a code of at most 255 bits has that code. -/
theorem bits_codeEntry {code : Bits} (h : code.length ≤ 255) : (codeEntry code).bits = code := by
  have hlen : (codeEntry code).len.toNat = code.length := toNat_ofNat_length h
  have hcode : (codeEntry code).code.toNat = bitsToNat code := Nat.mod_eq_of_lt (bitsToNat_lt_of_length_le h)
  refine eq_of_bitsToNat_eq ((Entry.length_bits _).trans hlen) ?_
  rw [bitsToNat_bits, hcode, hlen, Nat.mod_eq_of_lt (bitsToNat_lt code)]

/-- LOAD's code operand depends on the bits of CODE_DATA below the length alone (R67). -/
theorem codeOperand_congr {cd cd' : BitVec 256} {len : Len}
    (h : ∀ k, k < len.toNat → cd.getLsbD k = cd'.getLsbD k) : codeOperand cd len = codeOperand cd' len := by
  apply BitVec.eq_of_getLsbD_eq
  intro k hk
  rw [codeOperand_getLsbD _ _ _ hk, codeOperand_getLsbD _ _ _ hk]
  by_cases hlt : k < len.toNat
  · rw [h k hlt]
  · simp [hlt]

/-- The bits of CODE_DATA below 32n are those of `v` when its low `n` words are. -/
theorem codeValue_getLsbD_of_words {s : State} {v : BitVec 256} {n k : Nat}
    (hwords : ∀ j : Fin 8, j.val < n → s.codeData[j] = v.extractLsb' (32 * j.val) 32) (hk : k < 32 * n)
    (hk8 : k < 256) : s.codeValue.getLsbD k = v.getLsbD k := by
  have hword : s.codeData[k / 32] = v.extractLsb' (32 * (k / 32)) 32 := hwords ⟨k / 32, by omega⟩ (by dsimp only; omega)
  rw [codeValue_getLsbD s k hk8, hword, BitVec.getLsbD_extractLsb', Nat.div_add_mod]
  simp [Nat.mod_lt]

/-- The code operand of a code's own value is the code (R66). -/
theorem codeOperand_bitsToNat {code : Bits} (h : code.length ≤ 255) :
    codeOperand (BitVec.ofNat 256 (bitsToNat code)) (BitVec.ofNat 8 code.length) =
      BitVec.ofNat 255 (bitsToNat code) := by
  rw [codeOperand, toNat_ofNat_length h, BitVec.toNat_ofNat,
    Nat.mod_eq_of_lt (bitsToNat_lt_of_length_le (by omega : code.length ≤ 256)), Nat.mod_eq_of_lt (bitsToNat_lt code)]

/-- The accesses of LDCODE outside ENC make the entry that of the code, and change beside it CODE_DATA alone. -/
theorem performs_ldCode {s : State} {code : Bits} (sym : Sym) (hp : s.phase ≠ .enc) (hpos : 1 ≤ code.length)
    (hmax : code.length ≤ s.params.maxLen.toNat) :
    ∃ t, Performs ((expandLdCode sym code).flatMap (Line.access s.params)) s t ∧ LoadFrame s t ∧
      ∀ c, t.entry c = if sym = c then codeEntry code else s.entry c := by
  have h255 : code.length ≤ 255 := by omega
  have hlen := toNat_ofNat_length h255
  obtain ⟨t, hwrites, hframe, hct, hwords⟩ := performs_codeDataWrites (BitVec.ofNat 256 (bitsToNat code)) s
    (n := (code.length - 1) / 32 + 1) (by omega)
  have hoperand : codeOperand t.codeValue (BitVec.ofNat 8 code.length) = BitVec.ofNat 255 (bitsToNat code) := by
    rw [← codeOperand_bitsToNat h255]
    exact codeOperand_congr fun k hk => codeValue_getLsbD_of_words hwords (by omega) (by omega)
  have hexec := exec_load_of_legal (s := t) (len := BitVec.ofNat 8 code.length) (hframe.sameStatus.phase ▸ hp)
    (by rwa [hlen]) (by rwa [hlen, hframe.params]) sym
  have hload := performs_command hexec
  rw [hoperand, hframe.params] at hload
  refine ⟨setEntry sym (codeEntry code) t, ?_, hframe.trans (loadFrame_setEntry ..), fun c => ?_⟩
  · rw [access_expandLdCode]
    exact hwrites.append hload
  · rw [entry_setEntry, entry_congr hct]

/-- Settles O46: the entry is that of the code, which has at most 255 bits. -/
theorem ldCodeLoadsTheCode : Obligations.LdCodeLoadsTheCode := by
  intro s rest sym code hp hpos hmax prog
  obtain ⟨t, hperf, hframe, hentry⟩ := performs_ldCode sym hp hpos hmax
  have hprog : prog = (expandLdCode sym code).flatMap (Line.access s.params) := assemble_singleton ..
  have hself : (t.withPending rest).entry sym = codeEntry code := (hentry sym).trans (if_pos rfl)
  rw [hprog]
  refine ⟨t.withPending rest, hperf rest, ?_, ?_, fun other hne => ?_, ?_, ?_, rfl⟩
  · rw [hself, codeEntry_valid]
  · rw [hself, bits_codeEntry (by omega)]
  · exact (hentry other).trans (if_neg hne.symm)
  · exact { hframe.sameMessage with }
  · exact { hframe.sameStatus with }

/-! ## The table that LDTABLE loads -/

/-- The lines with which LDTABLE loads the symbols `cs` of a table. -/
def loadLines (tab : CodeTable) (cs : List Sym) : List Line :=
  cs.flatMap fun c => match tab.lookup c with
    | some code => expandLdCode c code
    | none => []

/-- The accesses of LDTABLE's LDCODEs outside ENC make the entry of each listed symbol that of its code. -/
theorem performs_loadLines {tab : CodeTable} {s : State} (cs : List Sym) (hp : s.phase ≠ .enc)
    (hcodes : ∀ c code, tab.lookup c = some code → 1 ≤ code.length ∧ code.length ≤ s.params.maxLen.toNat) :
    ∃ t, Performs ((loadLines tab cs).flatMap (Line.access s.params)) s t ∧ LoadFrame s t ∧
      ∀ c, t.entry c = if c ∈ cs then ((tab.lookup c).map codeEntry).getD (s.entry c) else s.entry c := by
  induction cs generalizing s with
  | nil => exact ⟨s, performs_nil s, .refl s, fun c => by simp⟩
  | cons d cs ih =>
    cases hd : tab.lookup d with
    | none =>
      obtain ⟨t, hperf, hframe, hentry⟩ := ih hp hcodes
      refine ⟨t, ?_, hframe, fun c => ?_⟩
      · simpa [loadLines, hd] using hperf
      · rw [hentry]
        by_cases hc : c = d <;> simp [hc, hd]
    | some code =>
      obtain ⟨hpos, hmax⟩ := hcodes d code hd
      obtain ⟨u, hperf, hframe, hentry⟩ := performs_ldCode d hp hpos hmax
      obtain ⟨t, hperf', hframe', hentry'⟩ := ih (s := u) (hframe.sameStatus.phase ▸ hp) (hframe.params ▸ hcodes)
      rw [hframe.params] at hperf'
      refine ⟨t, ?_, hframe.trans hframe', fun c => ?_⟩
      · simpa [loadLines, hd] using hperf.append hperf'
      · rw [hentry', hentry]
        by_cases hc : c = d
        · subst hc; simp [hd]
        · simp [hc, Ne.symm hc]

/-- In a table whose symbols are distinct the code found is the code listed. -/
theorem lookup_eq_some_iff_mem {tab : CodeTable} (h : (tab.map Prod.fst).Nodup) (c : Sym) (code : Bits) :
    tab.lookup c = some code ↔ (c, code) ∈ tab := by
  induction tab with
  | nil => simp
  | cons e tab ih =>
    obtain ⟨d, code'⟩ := e
    obtain ⟨hnot, hnodup⟩ := List.nodup_cons.mp h
    rw [List.lookup_cons, List.mem_cons]
    by_cases hc : c = d
    · subst hc
      have hrest : (c, code) ∉ tab := fun hmem => hnot (List.mem_map.mpr ⟨_, hmem, rfl⟩)
      simp [hrest, eq_comm]
    · simp [hc, ih hnodup, beq_false_of_ne hc]

/-- The table of a block lists the codes of its valid entries. -/
theorem mem_tableOf (s : State) (e : Sym × Bits) :
    e ∈ tableOf s ↔ (s.entry e.1).valid = true ∧ (s.entry e.1).bits = e.2 := by
  simp only [tableOf, List.mem_map, List.mem_filter, mem_allSyms, true_and]
  constructor
  · rintro ⟨c, hc, rfl⟩
    exact ⟨hc, rfl⟩
  · rintro ⟨hv, hb⟩
    exact ⟨e.1, hv, by rw [hb]⟩

/-- CLEAR outside ENC invalidates the table (R76). -/
theorem exec_clear_of_not_enc {s : State} (hp : s.phase ≠ .enc) (a : Sym) (b : Len) :
    exec (.clear a b) s = .next (invalidateTable s) := if_neg hp

/-- The accesses of LDTABLE outside ENC leave the entry of each symbol of the table that of its code, the others
invalid. -/
theorem performs_ldTable {tab : CodeTable} {s : State} (hp : s.phase ≠ .enc)
    (htab : TableWellFormed s.params.maxLen.toNat tab) :
    ∃ t, Performs ((expandLdTable tab).flatMap (Line.access s.params)) s t ∧ LoadFrame s t ∧
      ∀ c, t.entry c = ((tab.lookup c).map codeEntry).getD Entry.invalid := by
  have hclear := performs_command (exec_clear_of_not_enc hp 0 0)
  obtain ⟨t, hperf, hframe, hentry⟩ := performs_loadLines (s := invalidateTable s) allSyms hp
    fun c code hc => htab.lengths _ ((lookup_eq_some_iff_mem htab.isMap c code).mp hc)
  refine ⟨t, hclear.append hperf, (loadFrame_invalidateTable s).trans hframe, fun c => ?_⟩
  rw [hentry, if_pos (mem_allSyms c), entry_invalidateTable]

/-- Settles O47: a listed symbol has a valid entry with its code, every other symbol an invalid one. -/
theorem ldTableLoadsTheTable : Obligations.LdTableLoadsTheTable := by
  intro s rest tab hp htab prog
  obtain ⟨t, hperf, hframe, hentry⟩ := performs_ldTable hp htab
  have hprog : prog = (expandLdTable tab).flatMap (Line.access s.params) := assemble_singleton ..
  rw [hprog]
  refine ⟨t.withPending rest, hperf rest, fun ⟨c, code⟩ => ?_, ?_, ?_, rfl⟩
  · have hc : (t.withPending rest).entry c = _ := hentry c
    rw [mem_tableOf, hc, ← lookup_eq_some_iff_mem htab.isMap]
    cases hlookup : tab.lookup c with
    | none => simp [Entry.invalid]
    | some code' =>
      obtain ⟨-, hmax⟩ := htab.lengths _ ((lookup_eq_some_iff_mem htab.isMap c code').mp hlookup)
      have hbits : (codeEntry code').bits = code' := bits_codeEntry (by dsimp only at hmax; omega)
      simp [hbits]
  · exact { hframe.sameMessage with }
  · exact { hframe.sameStatus with }

end Sys2Proof.Machine
end

section
/-! PROOFS. The control commands (40_control_commands.md): NOP (R74) and SRESET (R75). -/

namespace Sys2Proof.Machine

/-! ## NOP -/

/-- A word with OP = 0 and RSV = 0 decodes to a NOP, whatever its SYM and LEN (R61, R63). -/
theorem decode_of_opcode_zero {w : Word} (hop : w.toNat % 2 ^ 8 = 0) (hrsv : w.toNat / 2 ^ 24 = 0) :
    decode w = .ok (.nop (symField w) (lenField w)) := by
  rw [← toNat_opField] at hop
  rw [← toNat_rsvField] at hrsv
  have hw : encode (.nop (symField w) (lenField w)) = w := encode_of_fields (BitVec.eq_of_toNat_eq hrsv) hop rfl
  simpa only [hw] using decode_encode (.nop (symField w) (lenField w))

/-- Settles O9: with RSV = 0 the step performs a NOP, with RSV not 0 the word is illegal. -/
theorem nopChangesNothing : Obligations.NopChangesNothing := by
  refine fun s rest w hop => ⟨fun hrsv => ?_, fun hrsv => ?_⟩
  · have hdecode := decode_of_opcode_zero hop hrsv
    refine ⟨⟨_, _, hdecode, rfl⟩, ?_⟩
    calc step { s with pending := .write (s.params.base + 4) 4 w :: rest }
        = performWord w { s with pending := rest } := nextEvent_cmdWrite w rest _ rfl
      _ = .next { s with pending := rest } := by rw [performWord, hdecode]; rfl
  · exact performWord_of_illegal ((illegal_iff w).mp (.inl hrsv)) s

/-! ## SRESET -/

/-- SRESET's writes leave the reset state of the same parameters and reset counter, but for OUT_BUF and the host's
lists (R75, R121). -/
theorem softReset_eq (s : State) :
    softReset s = { State.resetWith s.params s.epoch with
      outBuf := s.outBuf, pending := s.pending, received := s.received } := rfl

/-- Settles O10: SRESET leaves `softReset s` in every state. -/
theorem sresetIsResetKeepingOutBuf : Obligations.SresetIsResetKeepingOutBuf :=
  fun a b s => ⟨decode_encode (.sreset a b), congrArg Host.Outcome.next (softReset_eq s)⟩

end Sys2Proof.Machine
end

section
/-! PROOFS. The code-table commands (41_table_commands.md): CLEAR (R76), LOAD (R77) and READ (R78). -/

namespace Sys2Proof.Machine

/-- A state that differs from `s` in the code table alone has everything else of `s`. -/
theorem table_update_frame (s : State) (table : Vector Entry 256) :
    SameMessage s { s with ct := table } ∧ SameStatus s { s with ct := table } ∧
      SameStaging s { s with ct := table } ∧ SameWorld s { s with ct := table } :=
  ⟨⟨rfl, rfl, rfl, rfl, rfl, rfl, rfl⟩, ⟨rfl, rfl, rfl⟩, ⟨rfl, rfl, rfl⟩, ⟨rfl, rfl, rfl, rfl⟩⟩

/-! ## CLEAR -/

/-- Settles O12: outside ENC CLEAR leaves `invalidateTable s`, in ENC it raises STATE. -/
theorem clearInvalidatesEveryEntry : Obligations.ClearInvalidatesEveryEntry := fun a b s =>
  ⟨decode_encode (.clear a b),
    fun hp => ⟨invalidateTable s, exec_clear_of_not_enc hp a b, entry_invalidateTable (s := s),
      table_update_frame s _⟩,
    fun hp => exec_clear_of_enc hp a b⟩

/-! ## LOAD -/

/-- LOAD of length 0 or above MAX_LEN outside ENC raises BADLEN (R77). -/
theorem exec_load_of_badLength {s : State} {len : Len} (hp : s.phase ≠ .enc)
    (hlen : len.toNat = 0 ∨ s.params.maxLen.toNat < len.toNat) (sym : Sym) :
    exec (.load sym len) s = .next (s.raised .badLen (encode (.load sym len))) := by
  have hbad : badLength s len = true := (badLength_iff s len).mpr hlen
  simp only [exec, execLoad, hp, hbad, if_false, if_true, raise]

/-- Settles O13: outside ENC a legal length sets the entry from the bits of CODE_DATA below it, any other length raises
BADLEN; in ENC every length raises STATE. -/
theorem loadWritesOneEntry : Obligations.LoadWritesOneEntry := by
  intro sym len s
  refine ⟨decode_encode (.load sym len), fun hp hpos hmax => ?_, fun hp => exec_load_of_enc hp sym len,
    fun hp hlen => exec_load_of_badLength hp hlen sym⟩
  let e : Entry := ⟨true, len, codeOperand s.codeValue len⟩
  have hself : (setEntry sym e s).entry sym = e := by rw [entry_setEntry, if_pos rfl]
  refine ⟨setEntry sym e s, exec_load_of_legal hp hpos hmax sym, by rw [hself], by rw [hself], fun k hk => ?_,
    fun other hne => ?_, table_update_frame s _⟩
  · rw [hself, codeOperand_getLsbD _ _ _ hk, codeValue_getLsbD s k (by omega)]
  · rw [entry_setEntry, if_neg hne.symm]

/-! ## READ -/

/-- READ puts bits 32k+31 to 32k of the code in word k of CODE_DATA (R78). -/
theorem codeData_stageEntry (e : Entry) (s : State) (k : Fin 8) :
    (stageEntry e s).codeData[k] = (e.code.setWidth 256).extractLsb' (32 * k.val) 32 := by
  simp [stageEntry, setCodeValue]

/-- Bit j of word k of CODE_DATA after READ is bit 32k + j of the code (R78). -/
theorem codeData_stageEntry_getLsbD (e : Entry) (s : State) (k : Fin 8) {j : Nat} (hj : j < 32) :
    ((stageEntry e s).codeData[k]).getLsbD j = e.code.getLsbD (32 * k.val + j) := by
  have hbit : 32 * k.val + j < 256 := by omega
  rw [codeData_stageEntry, BitVec.getLsbD_extractLsb', BitVec.getLsbD_setWidth]
  simp [hj, hbit]

/-- Settles O14: READ leaves `stageEntry (s.entry sym) s`; an invalid entry has length 0 and code 0 (R34). -/
theorem readCopiesEntry : Obligations.ReadCopiesEntry := by
  refine fun sym x s => ⟨decode_encode (.read sym x), stageEntry (s.entry sym) s, rfl,
    fun k j hj => codeData_stageEntry_getLsbD _ s k hj, rfl, rfl, fun hok hinvalid => ?_, rfl,
    ⟨rfl, rfl, rfl, rfl, rfl, rfl, rfl⟩, ⟨rfl, rfl, rfl⟩, ⟨rfl, rfl, rfl, rfl⟩⟩
  obtain ⟨hlen, hcode⟩ := hok.cleared hinvalid
  refine ⟨fun k => ?_, hlen, hinvalid⟩
  rw [codeData_stageEntry, hcode]
  simp

end Sys2Proof.Machine
end

section
/-! PROOFS. Pack and Unpack (R83, R96): bytes and their bits are two forms of one sequence. -/

namespace Sys2Proof.Machine

open Sys2Proof.Reference

/-! ## A byte and its eight bits -/

@[simp] theorem length_byteBits (b : Byte) : (byteBits b).length = 8 := length_lowBits 8 b

theorem bitsToNat_byteBits (b : Byte) : bitsToNat (byteBits b) = b.toNat := by
  have hbits : bitsToNat (byteBits b) = 0 * 2 ^ 8 + b.toNat % 2 ^ 8 := foldl_testBit_range b.toNat 0 8
  rw [hbits, Nat.zero_mul, Nat.zero_add, Nat.mod_eq_of_lt b.isLt]

/-- The byte that eight bits make has those bits. -/
theorem byteBits_ofNat_bitsToNat {c : Bits} (hc : c.length = 8) : byteBits (BitVec.ofNat 8 (bitsToNat c)) = c := by
  refine eq_of_bitsToNat_eq (by rw [length_byteBits, hc]) ?_
  rw [bitsToNat_byteBits, BitVec.toNat_ofNat, Nat.mod_eq_of_lt (bitsToNat_lt_of_length_le hc.le)]

/-! ## Bits packed into bytes -/

theorem packBytes_nil : packBytes [] = [] := rfl

/-- The first eight bits make the first byte. -/
theorem packBytes_append {c : Bits} (hc : c.length = 8) (rest : Bits) :
    packBytes (c ++ rest) = BitVec.ofNat 8 (bitsToNat c) :: packBytes rest := by
  have hbytes : (c ++ rest).length / 8 = rest.length / 8 + 1 := by rw [List.length_append]; omega
  have hdrop (k : Nat) : (c ++ rest).drop (8 * (k + 1)) = rest.drop (8 * k) := by
    rw [Nat.mul_succ, Nat.add_comm, ← hc, ← List.drop_drop, List.drop_left]
  rw [packBytes, hbytes, List.range_succ_eq_map, List.map_cons, List.map_map, Nat.mul_zero, List.drop_zero,
    List.take_left' hc]
  refine congrArg _ (List.map_congr_left fun k _ => ?_)
  rw [Function.comp_apply, Nat.succ_eq_add_one, hdrop]

/-- Packing the bits of bytes gives the bytes back. -/
theorem packBytes_flatMap_byteBits (bs : List Byte) : packBytes (bs.flatMap byteBits) = bs := by
  induction bs with
  | nil => exact packBytes_nil
  | cons b bs ih =>
    rw [List.flatMap_cons, packBytes_append (length_byteBits b), ih, bitsToNat_byteBits, BitVec.ofNat_toNat,
      BitVec.setWidth_eq]

/-- The packed bytes of a whole number of bytes have exactly the bits packed. -/
theorem flatMap_byteBits_packBytes {n : Nat} {pb : Bits} (h : pb.length = 8 * n) :
    (packBytes pb).flatMap byteBits = pb := by
  induction n generalizing pb with
  | zero => rw [List.length_eq_zero_iff.mp h, packBytes_nil, List.flatMap_nil]
  | succ n ih =>
    have hc : (pb.take 8).length = 8 := by rw [List.length_take]; omega
    have hrest : (pb.drop 8).length = 8 * n := by rw [List.length_drop]; omega
    calc (packBytes pb).flatMap byteBits
        = (packBytes (pb.take 8 ++ pb.drop 8)).flatMap byteBits := by rw [List.take_append_drop]
      _ = pb.take 8 ++ pb.drop 8 := by
          rw [packBytes_append hc, List.flatMap_cons, byteBits_ofNat_bitsToNat hc, ih hrest]
      _ = pb := List.take_append_drop 8 pb

/-! ## Padding -/

/-- The padding completes the last byte (R83, R84). -/
theorem add_padCount (n : Nat) : n + padCount n = 8 * ceil8 n := by
  unfold padCount ceil8
  omega

/-- The bits of a packed sequence: the header's, then the bits with their padding (R83). -/
theorem flatMap_byteBits_pack (bits : Bits) :
    (pack bits).flatMap byteBits =
      byteBits (BitVec.ofNat 8 (padCount bits.length)) ++ (bits ++ List.replicate (padCount bits.length) false) := by
  rw [pack, List.flatMap_cons, flatMap_byteBits_packBytes (n := ceil8 bits.length)]
  rw [List.length_append, List.length_replicate, add_padCount]

/-- Settles O40: the first eight bits are the padding count, which says how many bits to drop at the end. -/
theorem unpackInvertsPack : Obligations.UnpackInvertsPack := by
  intro bits
  have hpad : bitsToNat (byteBits (BitVec.ofNat 8 (padCount bits.length))) = padCount bits.length := by
    rw [bitsToNat_byteBits, BitVec.toNat_ofNat]
    exact Nat.mod_eq_of_lt (Nat.lt_trans (padCount_lt _) (by decide))
  have hlen : ((pack bits).flatMap byteBits).length = 8 + (bits.length + padCount bits.length) := by
    simp [flatMap_byteBits_pack]
  have htake : bitsToNat (((pack bits).flatMap byteBits).take 8) = padCount bits.length := by
    rw [flatMap_byteBits_pack, List.take_left' (length_byteBits _), hpad]
  have hdrop : ((pack bits).flatMap byteBits).drop 8 = bits ++ List.replicate (padCount bits.length) false := by
    rw [flatMap_byteBits_pack, List.drop_left' (length_byteBits _)]
  have hkept : 8 + (bits.length + padCount bits.length) - padCount bits.length - 8 = bits.length := by omega
  rw [unpack]
  simp only [htake, hlen, hdrop, hkept, List.take_left]
  rw [if_neg (by omega), if_neg (by omega)]

end Sys2Proof.Machine
end

section
/-! PROOFS. The message commands (42_stream_commands.md): BEGIN (R80), ENC (R81), FINISH (R82, R84). -/

namespace Sys2Proof.Machine

open Sys2Proof.Reference (byteBits pack)

/-- In ENC the invariant says the message is open (R41). -/
theorem StateInv.openShape {s : State} (h : StateInv s) (hp : s.phase = .enc) : OpenShape s := by
  simpa only [MessageShape, hp] using h.message

/-! ## BEGIN -/

/-- BEGIN outside ENC opens an empty message (R80). -/
theorem exec_begin_of_not_enc {s : State} (hp : s.phase ≠ .enc) (a : Sym) (b : Len) :
    exec (.begin a b) s = .next (openMessage s) := if_neg hp

/-- BEGIN of an open message raises STATE (R80). -/
theorem exec_begin_of_enc {s : State} (hp : s.phase = .enc) (a : Sym) (b : Len) :
    exec (.begin a b) s = .next (s.raised .state (encode (.begin a b))) := if_pos hp

@[simp] theorem openBits_openMessage (s : State) : openBits (openMessage s) = [] := rfl

/-- Settles O18: outside ENC BEGIN leaves `openMessage s`, in ENC it raises STATE. -/
theorem beginOpensMessage : Obligations.BeginOpensMessage := fun a b s =>
  ⟨decode_encode (.begin a b),
    fun hp => ⟨openMessage s, exec_begin_of_not_enc hp a b, rfl, rfl, rfl, rfl, rfl, rfl, rfl, rfl, rfl,
      openBits_openMessage s, rfl, rfl, ⟨rfl, rfl, rfl⟩, ⟨rfl, rfl, rfl, rfl⟩⟩,
    fun hp => exec_begin_of_enc hp a b⟩

/-! ## ENC -/

/-- ENC outside an open message raises STATE, whatever the entry (R81, R105). -/
theorem exec_enc_of_not_enc {s : State} (hp : s.phase ≠ .enc) (sym : Sym) (x : Len) :
    exec (.enc sym x) s = .next (s.raised .state (encode (.enc sym x))) := if_pos hp

/-- ENC of an invalid entry raises NOCODE, whatever the room (R81, R105). -/
theorem exec_enc_of_invalid {s : State} {sym : Sym} (hp : s.phase = .enc) (hv : (s.entry sym).valid = false) (x : Len) :
    exec (.enc sym x) s = .next (s.raised .noCode (encode (.enc sym x))) :=
  (if_neg (not_not.mpr hp)).trans (if_pos hv)

/-- ENC of a valid entry whose code does not fit raises OVERFLOW (R81). -/
theorem exec_enc_of_overflow {s : State} {sym : Sym} (hp : s.phase = .enc) (hv : (s.entry sym).valid = true)
    (hroom : ¬ 1 + ceil8 (s.bitCnt.toNat + (s.entry sym).len.toNat) ≤ s.params.outCap.toNat) (x : Len) :
    exec (.enc sym x) s = .next (s.raised .overflow (encode (.enc sym x))) := by
  have ho : overflows s (s.entry sym).len = true := (overflows_iff s _).mpr (Nat.not_le.mp hroom)
  simp [exec, execEnc, raise, hp, hv, ho]

/-- ENC of a valid entry whose code fits appends the code (R81). -/
theorem exec_enc_of_fits {s : State} {sym : Sym} (hp : s.phase = .enc) (hv : (s.entry sym).valid = true)
    (hroom : 1 + ceil8 (s.bitCnt.toNat + (s.entry sym).len.toNat) ≤ s.params.outCap.toNat) (x : Len) :
    exec (.enc sym x) s = .next (appendBits (s.entry sym).bits s) := by
  have ho : overflows s (s.entry sym).len = false := overflows_eq_false_iff.mpr hroom
  simp [exec, execEnc, hp, hv, ho]

/-- Settles O19: the checks are made in order, and after them the code's bits are appended to the open message. -/
theorem encAppendsTheCode : Obligations.EncAppendsTheCode := by
  refine fun sym x s => ⟨decode_encode (.enc sym x), fun h hp hv hroom => ?_, fun hp => exec_enc_of_not_enc hp sym x,
    fun hp hv => exec_enc_of_invalid hp hv x, fun hp hv hroom => exec_enc_of_overflow hp hv (Nat.not_le.mpr hroom) x⟩
  have hopen := h.openShape hp
  obtain ⟨hopen', hcnt, hbits, hkeep⟩ := appendBits_open (s.entry sym).bits hopen (by rwa [Entry.length_bits])
  obtain ⟨hlen, hpad, hct, hstatus, hstaging, hworld⟩ := appendBits_frame (s.entry sym).bits s
  rw [Entry.length_bits] at hcnt
  have hptr : 1 ≤ s.outPtr.toNat := hopen.outPtr ▸ Nat.le_add_right 1 _
  exact ⟨_, exec_enc_of_fits hp hv hroom x, hbits, hcnt, hopen'.outPtr, hopen'.accN, hopen'.acc,
    fun a hge hlt => hopen'.written a (hptr.trans hge) hlt, hkeep, hlen, hpad, hct, hstatus, hstaging, hworld⟩

/-! ## FINISH -/

/-- FINISH of an open message closes it (R82). -/
theorem exec_finish_of_enc {s : State} (hp : s.phase = .enc) (a : Sym) (b : Len) :
    exec (.finish a b) s = .next (finishMessage s) := if_neg (not_not.mpr hp)

/-- FINISH outside ENC raises STATE (R82). -/
theorem exec_finish_of_not_enc {s : State} (hp : s.phase ≠ .enc) (a : Sym) (b : Len) :
    exec (.finish a b) s = .next (s.raised .state (encode (.finish a b))) := if_pos hp

theorem finishMessage_phase (s : State) : (finishMessage s).phase = .done := rfl

/-- ACC_N is not 0 when its number is above 0. -/
theorem accN_ne_zero_iff (s : State) : s.accN ≠ 0 ↔ 0 < s.accN.toNat := by
  rw [Nat.pos_iff_ne_zero, ne_eq, ne_eq, ← BitVec.toNat_inj]
  rfl

/-- The bits of the open message are BITCNT many. -/
theorem length_openBits {s : State} (h : OpenShape s) : (openBits s).length = s.bitCnt.toNat := by
  have hptr := h.outPtr
  have haccN := h.accN
  simp [openBits]
  omega

/-- The low `n` bits of a byte, pushed up by `m` places, are followed by `m` zeros (R82). -/
theorem lowBits_shiftLeft (acc : Byte) {m n : Nat} (h : m + n ≤ 8) :
    lowBits (m + n) (acc <<< m) = lowBits n acc ++ List.replicate m false := by
  have hhigh : ∀ i ∈ (List.range n).reverse, (acc <<< m).getLsbD (m + i) = acc.getLsbD i := fun i hi => by
    have := List.mem_range.mp (List.mem_reverse.mp hi)
    rw [BitVec.getLsbD_shiftLeft, Nat.add_sub_cancel_left, decide_eq_true (by omega : m + i < 8)]
    simp
  have hlow : ∀ i ∈ (List.range m).reverse, (acc <<< m).getLsbD i = false := fun i hi => by
    have hi : i < m := List.mem_range.mp (List.mem_reverse.mp hi)
    simp [hi]
  rw [lowBits, List.range_add, List.reverse_append, List.map_append, ← List.map_reverse, List.map_map]
  refine congrArg₂ _ (List.map_congr_left hhigh) ?_
  rw [List.map_congr_left hlow]
  simp

/-- A byte that holds `n` bits is completed by pushing them up and padding with zeros (R82). -/
theorem byteBits_shiftLeft (acc : Byte) {n : Nat} (hn : n ≤ 8) :
    byteBits (acc <<< (8 - n)) = lowBits n acc ++ List.replicate (8 - n) false := by
  have hsum : 8 - n + n = 8 := Nat.sub_add_cancel hn
  rw [← lowBits_shiftLeft acc hsum.le, hsum, byteBits_eq_lowBits]

/-- In DONE the host reads the stored bytes of the payload (R39). -/
theorem payload_of_done {s : State} (hp : s.phase = .done) (h : DoneShape s) :
    payload s = (List.range s.outLen.toNat).map (storedByte s) := by
  refine List.map_congr_left fun i hi => ?_
  have hlt := List.mem_range.mp hi
  obtain ⟨b, hb⟩ := Option.isSome_iff_exists.mp (h.written i hlt)
  rw [hostByte_of_defined (by simpa [definedByte, hp] using hlt) hb, storedByte, hb, Option.getD_some]

/-- The payload of a finished message is its header and then its message bytes (R45). -/
theorem payload_eq_cons {s : State} (hp : s.phase = .done) (h : DoneShape s) :
    payload s = BitVec.ofNat 8 (padCount s.bitCnt.toNat) ::
      (List.range (ceil8 s.bitCnt.toNat)).map (fun k => storedByte s (1 + k)) := by
  have hheader : storedByte s 0 = BitVec.ofNat 8 (padCount s.bitCnt.toNat) := by
    rw [storedByte, h.header, Option.getD_some, ← h.pad, BitVec.ofNat_toNat]
  rw [payload_of_done hp h, h.outLen, List.range_add, List.map_append, List.map_map, List.range_one, List.map_singleton,
    hheader]
  rfl

/-- Bits left in ACC make one more byte, which ACC_N bits short of 8 pad (R82). -/
theorem OpenShape.lastByte {s : State} (h : OpenShape s) (hpos : 0 < s.accN.toNat) :
    ceil8 s.bitCnt.toNat = s.outPtr.toNat ∧ padCount s.bitCnt.toNat = 8 - s.accN.toNat := by
  have hptr := h.outPtr
  have haccN := h.accN
  unfold ceil8 padCount
  omega

/-- FINISH leaves the bits of ACC, padded, at OUT_PTR (R82). -/
theorem finishMessage_read_outPtr {s : State} (h : OpenShape s) (hpos : 0 < s.accN.toNat) :
    Memory.read (finishMessage s).outBuf s.outPtr.toNat = some (s.acc <<< (8 - s.accN.toNat)) := by
  have hptr := h.outPtr
  rw [finishMessage_read, if_neg (by omega), if_pos ⟨(accN_ne_zero_iff s).mpr hpos, rfl⟩]

/-- The message bytes that FINISH leaves hold the message's bits and then the padding zeros (R82, R84). -/
theorem finishMessage_messageBytes {s : State} (h : OpenShape s) :
    (List.range (ceil8 s.bitCnt.toNat)).flatMap (fun k => byteBits (storedByte (finishMessage s) (1 + k))) =
      openBits s ++ List.replicate (padCount s.bitCnt.toNat) false := by
  have hptr := h.outPtr
  have haccN := h.accN
  have hstored (a : Nat) (ha : 0 < a) (hne : ¬ (s.accN ≠ 0 ∧ a = s.outPtr.toNat)) :
      storedByte (finishMessage s) a = storedByte s a := by
    rw [storedByte, finishMessage_read, if_neg (Nat.ne_of_gt ha), if_neg hne, storedByte]
  have hwhole : (List.range (s.outPtr.toNat - 1)).flatMap (fun k => byteBits (storedByte (finishMessage s) (1 + k))) =
      (List.range (s.outPtr.toNat - 1)).flatMap (fun k => byteBits (storedByte s (1 + k))) :=
    flatMap_storedByte_congr _ fun k hk => hstored (1 + k) (by omega) (fun hlast => by omega)
  rw [openBits]
  by_cases hpos : 0 < s.accN.toNat
  · obtain ⟨hcount, hpad⟩ := h.lastByte hpos
    have hprev : ceil8 s.bitCnt.toNat = s.outPtr.toNat - 1 + 1 := by omega
    have hlast : storedByte (finishMessage s) (1 + (s.outPtr.toNat - 1)) = s.acc <<< (8 - s.accN.toNat) := by
      rw [Nat.add_sub_cancel' (by omega), storedByte, finishMessage_read_outPtr h hpos, Option.getD_some]
    rw [hprev, List.range_succ, List.flatMap_append, hwhole, List.flatMap_singleton, hlast, hpad,
      byteBits_shiftLeft s.acc (by omega), List.append_assoc]
  · have hcount : ceil8 s.bitCnt.toNat = s.outPtr.toNat - 1 := by unfold ceil8; omega
    have hpad : padCount s.bitCnt.toNat = 0 := by unfold padCount; omega
    have hempty : s.accN.toNat = 0 := by omega
    rw [hcount, hpad, hwhole, hempty]
    simp [lowBits]

/-- The payload of a finished message is the packing of its bits (R82, R83). -/
theorem payload_finishMessage {s : State} (h : OpenShape s) : payload (finishMessage s) = pack (openBits s) := by
  obtain ⟨hcnt, -⟩ := finishMessage_frame s
  rw [payload_eq_cons (finishMessage_phase s) (finishMessage_open h), hcnt, pack, length_openBits h,
    ← finishMessage_messageBytes h, ← List.flatMap_map, packBytes_flatMap_byteBits]

/-- Settles O20: FINISH of an open message leaves `finishMessage s`, whose payload is the packed message. -/
theorem finishPadsAndCloses : Obligations.FinishPadsAndCloses := by
  refine fun a b s => ⟨decode_encode (.finish a b), fun h hp => ?_, fun hp => exec_finish_of_not_enc hp a b⟩
  have hopen := h.openShape hp
  have hdone := finishMessage_open hopen
  obtain ⟨hcnt, herr, hcmd, hct, hstaging, hworld⟩ := finishMessage_frame s
  refine ⟨_, exec_finish_of_enc hp a b, finishMessage_phase s, hcnt ▸ hdone.pad, hdone.header,
    finishMessage_read_outPtr hopen, payload_finishMessage hopen, hcnt ▸ hdone.outLen, hdone.outPtr, hdone.acc,
    hdone.accN, hcnt, fun i hi hlast => ?_, herr, hcmd, hct, hstaging, hworld⟩
  rw [finishMessage_read, if_neg hi, if_neg (by rwa [accN_ne_zero_iff])]

/-- Settles O21: with padding the last payload byte is ACC pushed up by the PAD places. -/
theorem paddingAfterFinish : Obligations.PaddingAfterFinish := by
  intro a b s h hp
  have hopen := h.openShape hp
  have hdone := finishMessage_open hopen
  have haccN := hopen.accN
  have hpad := hdone.pad
  have hlen := hdone.outLen
  have hsum := add_padCount s.bitCnt.toNat
  have hlt := padCount_lt s.bitCnt.toNat
  obtain ⟨hcnt, -⟩ := finishMessage_frame s
  rw [hcnt] at hpad hlen
  refine ⟨_, exec_finish_of_enc hp a b, by omega, by rw [hcnt]; omega, by rw [hcnt]; omega, fun k hk => ?_⟩
  have hpos : 0 < s.accN.toNat := by
    unfold padCount at hpad
    omega
  obtain ⟨hcount, hplaces⟩ := hopen.lastByte hpos
  have hlast : (finishMessage s).outLen.toNat - 1 = s.outPtr.toNat := by omega
  have hdefined : definedByte (finishMessage s) s.outPtr.toNat = true :=
    decide_eq_true (by omega : s.outPtr.toNat < (finishMessage s).outLen.toNat)
  rw [hlast, hostByte_of_defined hdefined (finishMessage_read_outPtr hopen hpos), BitVec.getLsbD_shiftLeft,
    decide_eq_true (by omega : k < 8 - s.accN.toNat)]
  simp

end Sys2Proof.Machine
end

section
/-! PROOFS. Whole messages (42_stream_commands.md): the packing law (R83), the empty message (R85) and the message of
one symbol (R86). -/

namespace Sys2Proof.Machine

open Sys2Proof.Reference

/-! ## Commands performed one after another -/

theorem execAll_cons {i : Instr} {s t : State} (h : exec i s = .next t) (is : List Instr) :
    execAll (i :: is) s = execAll is t := by rw [execAll, h]

theorem execAll_append {as : List Instr} {s t : State} (h : execAll as s = .next t) (bs : List Instr) :
    execAll (as ++ bs) s = execAll bs t := by
  induction as generalizing s with
  | nil =>
    cases h
    rfl
  | cons a as ih =>
    obtain ⟨u, hu, -⟩ := exec_world a s
    rw [execAll_cons hu] at h
    rw [List.cons_append, execAll_cons hu, ih h]

/-! ## An error stays recorded -/

/-- After error entry an error is recorded (R106). -/
theorem raised_errCode_ne_none {e : ErrCode} (he : e ≠ .none) (w : Word) (s : State) :
    (s.raised e w).errCode ≠ .none := by
  rw [raised_errCode]
  split
  · exact he
  · assumption

/-- In ERR with an error recorded, a command other than BEGIN and SRESET changes nothing of what is recorded (R106,
R108). -/
theorem exec_of_recorded {i : Instr} {s : State} (hp : s.phase = .err) (he : s.errCode ≠ .none)
    (hi : ∀ a b, i ≠ .begin a b ∧ i ≠ .sreset a b) : ∃ t, exec i s = .next t ∧ SameStatus s t := by
  obtain ⟨t, ht, -⟩ := exec_world i s
  refine ⟨t, ht, ?_⟩
  obtain ⟨e, -, rfl⟩ | hs := exec_cases ht
  · rw [raised_of_recorded e _ s hp he]
    exact ⟨rfl, rfl, rfl⟩
  · cases i with
    | nop | read =>
      cases hs
      exact ⟨rfl, rfl, rfl⟩
    | sreset a b => exact absurd rfl (hi a b).2
    | begin a b => exact absurd rfl (hi a b).1
    | clear =>
      obtain ⟨-, rfl⟩ := hs
      exact ⟨rfl, rfl, rfl⟩
    | load =>
      obtain ⟨-, -, rfl⟩ := hs
      exact ⟨rfl, rfl, rfl⟩
    | enc | finish => exact absurd (hp.symm.trans hs.1) (by decide)

/-- A recorded error outlives every command sequence without BEGIN and SRESET (R106, R108). -/
theorem execAll_of_recorded {is : List Instr} {s : State} (hp : s.phase = .err) (he : s.errCode ≠ .none)
    (his : ∀ i ∈ is, ∀ a b, i ≠ .begin a b ∧ i ≠ .sreset a b) :
    ∃ t, execAll is s = .next t ∧ SameStatus s t := by
  induction is generalizing s with
  | nil => exact ⟨s, rfl, rfl, rfl, rfl⟩
  | cons i is ih =>
    obtain ⟨hhead, htail⟩ := List.forall_mem_cons.mp his
    obtain ⟨t, ht, hst⟩ := exec_of_recorded hp he hhead
    obtain ⟨u, hu, htu⟩ := ih (hst.phase.trans hp) (hst.errCode ▸ he) htail
    exact ⟨u, (execAll_cons ht is).trans hu, htu.phase.trans hst.phase, htu.errCode.trans hst.errCode,
      htu.errCmd.trans hst.errCmd⟩

/-! ## The commands between BEGIN and FINISH -/

/-- A message is open and no error is recorded. -/
structure Encoding (s : State) : Prop where
  phase : s.phase = .enc
  errCode : s.errCode = .none
  shape : OpenShape s

/-- `t` is `s` with the bits `bs` appended to its open message. -/
structure Appended (bs : Bits) (s t : State) : Prop extends Encoding t where
  bits : openBits t = openBits s ++ bs
  ct : t.ct = s.ct
  params : t.params = s.params

/-- The symbols have valid entries, and their codes fit behind what the open message holds (R83). -/
def Fits (s : State) (syms : List Sym) : Prop :=
  (∀ sym ∈ syms, (s.entry sym).valid = true) ∧
    1 + ceil8 (s.bitCnt.toNat + (messageBits s syms).length) ≤ s.params.outCap.toNat

theorem messageBits_append (s : State) (as bs : List Sym) :
    messageBits s (as ++ bs) = messageBits s as ++ messageBits s bs := List.flatMap_append

theorem messageBits_singleton (s : State) (sym : Sym) : messageBits s [sym] = (s.entry sym).bits :=
  List.flatMap_singleton ..

/-- The codes of a message depend on the table alone. -/
theorem messageBits_congr {s t : State} (h : t.ct = s.ct) (syms : List Sym) :
    messageBits t syms = messageBits s syms :=
  List.flatMap_congr fun c _ => by rw [entry_congr h]

section Appended
variable {as bs : Bits} {s t u : State}

theorem Encoding.appended_nil (h : Encoding s) : Appended [] s s := ⟨h, (List.append_nil _).symm, rfl, rfl⟩

theorem Appended.trans (hst : Appended as s t) (htu : Appended bs t u) : Appended (as ++ bs) s u :=
  ⟨htu.toEncoding, by rw [htu.bits, hst.bits, List.append_assoc], htu.ct.trans hst.ct, htu.params.trans hst.params⟩

/-- BITCNT grows by the number of appended bits. -/
theorem Appended.bitCnt (h : Appended as s t) (hs : Encoding s) : t.bitCnt.toNat = s.bitCnt.toNat + as.length := by
  rw [← length_openBits h.shape, h.bits, List.length_append, length_openBits hs.shape]
end Appended

theorem Encoding.fits_nil {s : State} (h : Encoding s) : Fits s [] := ⟨by simp, h.shape.fits⟩

/-- What fits as a whole fits in part. -/
theorem Fits.of_append {s : State} {as bs : List Sym} (h : Fits s (as ++ bs)) : Fits s as := by
  obtain ⟨hvalid, hroom⟩ := h
  refine ⟨fun sym hsym => hvalid sym (List.mem_append_left bs hsym), ?_⟩
  rw [messageBits_append, List.length_append] at hroom
  unfold ceil8 at *
  omega

/-- After a first part of the symbols, the rest fits exactly when the whole did. -/
theorem Appended.fits_iff {s t : State} {as bs : List Sym} (h : Appended (messageBits s as) s t) (hs : Encoding s)
    (has : Fits s as) : Fits t bs ↔ Fits s (as ++ bs) := by
  have hentry := entry_congr h.ct
  rw [Fits, Fits, messageBits_congr h.ct, messageBits_append, List.length_append, h.bitCnt hs, h.params, Nat.add_assoc,
    List.forall_mem_append]
  simp only [hentry]
  exact and_congr_left fun _ => ⟨fun hbs => ⟨has.1, hbs⟩, And.right⟩

theorem encodedSyms_cons (i : Instr) (is : List Instr) : encodedSyms (i :: is) = encodedSyms [i] ++ encodedSyms is := by
  cases i <;> rfl

/-- An ENC appends its code when that fits, and records an error when it does not (R81). -/
theorem exec_enc_of_encoding {s : State} (h : Encoding s) (sym : Sym) (x : Len) :
    ∃ t, exec (.enc sym x) s = .next t ∧ (Fits s [sym] → Appended (s.entry sym).bits s t) ∧
      (¬ Fits s [sym] → t.phase = .err ∧ t.errCode ≠ .none) := by
  have hfits : Fits s [sym] ↔ (s.entry sym).valid = true ∧
      1 + ceil8 (s.bitCnt.toNat + (s.entry sym).len.toNat) ≤ s.params.outCap.toNat := by
    rw [Fits, messageBits_singleton, Entry.length_bits, List.forall_mem_singleton]
  rw [hfits]
  by_cases hv : (s.entry sym).valid = true
  · by_cases hroom : 1 + ceil8 (s.bitCnt.toNat + (s.entry sym).len.toNat) ≤ s.params.outCap.toNat
    · refine ⟨_, exec_enc_of_fits h.phase hv hroom x, fun _ => ?_, fun hnot => absurd ⟨hv, hroom⟩ hnot⟩
      obtain ⟨hopen, -, hbits, -⟩ := appendBits_open (s.entry sym).bits h.shape (by rwa [Entry.length_bits])
      obtain ⟨-, -, hct, hstatus, -, hworld⟩ := appendBits_frame (s.entry sym).bits s
      exact ⟨⟨hstatus.phase.trans h.phase, hstatus.errCode.trans h.errCode, hopen⟩, hbits, hct, hworld.params⟩
    · exact ⟨_, exec_enc_of_overflow h.phase hv hroom x, fun hfit => absurd hfit.2 hroom,
        fun _ => ⟨rfl, raised_errCode_ne_none (by decide) _ s⟩⟩
  · exact ⟨_, exec_enc_of_invalid h.phase (eq_false_of_ne_true hv) x, fun hfit => absurd hfit.1 hv,
      fun _ => ⟨rfl, raised_errCode_ne_none (by decide) _ s⟩⟩

/-- A command of an open message appends the codes of the symbols it encodes when they fit, and records an error when
they do not. -/
theorem exec_of_inMessage {i : Instr} (hi : inMessage i = true) {s : State} (h : Encoding s) :
    ∃ t, exec i s = .next t ∧
      (Fits s (encodedSyms [i]) → Appended (messageBits s (encodedSyms [i])) s t) ∧
      (¬ Fits s (encodedSyms [i]) → t.phase = .err ∧ t.errCode ≠ .none) := by
  cases i with
  | enc sym x =>
    rw [show encodedSyms [.enc sym x] = [sym] from rfl, messageBits_singleton]
    exact exec_enc_of_encoding h sym x
  | nop => exact ⟨s, rfl, fun _ => h.appended_nil, fun hnot => absurd h.fits_nil hnot⟩
  | read sym =>
    exact ⟨_, rfl, fun _ => ⟨⟨h.phase, h.errCode, { h.shape with }⟩, (List.append_nil _).symm, rfl, rfl⟩,
      fun hnot => absurd h.fits_nil hnot⟩
  | sreset | clear | load | begin | finish => cases hi

/-- A command that may stand inside a message is no BEGIN and no SRESET. -/
theorem ne_begin_sreset_of_inMessage {i : Instr} (hi : inMessage i = true) (a : Sym) (b : Len) :
    i ≠ .begin a b ∧ i ≠ .sreset a b :=
  ⟨fun h => by simp [h, inMessage] at hi, fun h => by simp [h, inMessage] at hi⟩

/-- The commands of an open message append the message bitstring when it fits, and leave an error recorded when it does
not (R83). -/
theorem execAll_of_inMessage {is : List Instr} (his : ∀ i ∈ is, inMessage i = true) {s : State} (h : Encoding s) :
    ∃ t, execAll is s = .next t ∧
      (Fits s (encodedSyms is) → Appended (messageBits s (encodedSyms is)) s t) ∧
      (¬ Fits s (encodedSyms is) → t.phase = .err ∧ t.errCode ≠ .none) := by
  induction is generalizing s with
  | nil => exact ⟨s, rfl, fun _ => h.appended_nil, fun hnot => absurd h.fits_nil hnot⟩
  | cons i is ih =>
    obtain ⟨hhead, htail⟩ := List.forall_mem_cons.mp his
    obtain ⟨t, ht, happended, hfailed⟩ := exec_of_inMessage hhead h
    rw [encodedSyms_cons, execAll_cons ht, messageBits_append]
    by_cases hfit : Fits s (encodedSyms [i])
    · have hst := happended hfit
      obtain ⟨u, hu, happended', hfailed'⟩ := ih htail hst.toEncoding
      rw [hst.fits_iff h hfit, messageBits_congr hst.ct] at happended'
      rw [hst.fits_iff h hfit] at hfailed'
      exact ⟨u, hu, fun hall => hst.trans (happended' hall), hfailed'⟩
    · obtain ⟨hp, he⟩ := hfailed hfit
      obtain ⟨u, hu, hstatus⟩ :=
        execAll_of_recorded hp he fun j hj => ne_begin_sreset_of_inMessage (htail j hj)
      exact ⟨u, hu, fun hall => absurd hall.of_append hfit,
        fun _ => ⟨hstatus.phase.trans hp, hstatus.errCode ▸ he⟩⟩

/-! ## Whole messages -/

/-- BEGIN outside ENC leaves an open message with no error recorded. -/
theorem openMessage_encoding {s : State} (hp : s.params.Ok) : Encoding (openMessage s) :=
  ⟨rfl, rfl, openMessage_open hp⟩

/-- What fits in the empty message: R83's conditions on the symbols. -/
theorem fits_openMessage (s : State) (syms : List Sym) :
    Fits (openMessage s) syms ↔ (∀ sym ∈ syms, (s.entry sym).valid = true) ∧
      1 + ceil8 (messageBits s syms).length ≤ s.params.outCap.toNat := by
  have hcnt : (openMessage s).bitCnt.toNat = 0 := rfl
  rw [Fits, hcnt, Nat.zero_add]
  rfl

/-- No command of `is ++ [FINISH]` forgets an error. -/
theorem ne_begin_sreset_of_messageEnd {is : List Instr} (his : ∀ i ∈ is, inMessage i = true) (c : Sym) (d : Len) :
    ∀ i ∈ is ++ [.finish c d], ∀ a b, i ≠ .begin a b ∧ i ≠ .sreset a b := by
  rw [List.forall_mem_append, List.forall_mem_singleton]
  exact ⟨fun i hi => ne_begin_sreset_of_inMessage (his i hi), fun a b => ⟨nofun, nofun⟩⟩

/-- Settles O22: from BEGIN on, the message bitstring is appended or an error is recorded, which stays to the end. -/
theorem packingLaw : Obligations.PackingLaw := by
  intro s is a c b d hparams his
  rw [List.append_assoc, List.singleton_append]
  by_cases hp : s.phase = .enc
  · have herr : (s.raised .state (encode (.begin a b))).errCode ≠ .none := raised_errCode_ne_none (by decide) _ s
    obtain ⟨t, ht, hstatus⟩ := execAll_of_recorded (raised_phase ..) herr (ne_begin_sreset_of_messageEnd his c d)
    have herr' : t.errCode ≠ .none := hstatus.errCode ▸ herr
    exact ⟨t, (execAll_cons (exec_begin_of_enc hp a b) _).trans ht,
      iff_of_false herr' fun hok => hok.1 hp, fun hnone => absurd hnone herr'⟩
  · have hopen := openMessage_encoding hparams
    obtain ⟨t, ht, happended, hfailed⟩ := execAll_of_inMessage his hopen
    rw [messageBits_congr (rfl : (openMessage s).ct = s.ct)] at happended
    rw [execAll_cons (exec_begin_of_not_enc hp a b), execAll_append ht]
    by_cases hfit : Fits (openMessage s) (encodedSyms is)
    · have hst := happended hfit
      have hcnt : t.bitCnt.toNat = (messageBits s (encodedSyms is)).length := (hst.bitCnt hopen).trans (Nat.zero_add _)
      have hbits : openBits t = messageBits s (encodedSyms is) := hst.bits
      obtain ⟨hcnt', herr, -⟩ := finishMessage_frame t
      refine ⟨finishMessage t, execAll_cons (exec_finish_of_enc hst.phase c d) [], ?_, fun _ =>
        ⟨finishMessage_phase t, hcnt' ▸ hcnt, ?_, hbits ▸ payload_finishMessage hst.shape⟩⟩
      · exact iff_of_true (herr.trans hst.errCode) ⟨hp, (fits_openMessage s _).mp hfit⟩
      · rw [(finishMessage_open hst.shape).outLen, hcnt', hcnt, ceil8]
    · obtain ⟨hpt, het⟩ := hfailed hfit
      obtain ⟨u, hu, hstatus⟩ := exec_of_recorded (i := .finish c d) hpt het fun a b => ⟨nofun, nofun⟩
      have herr : u.errCode ≠ .none := hstatus.errCode ▸ het
      exact ⟨u, execAll_cons hu [], iff_of_false herr fun hok => hfit ((fits_openMessage s _).mpr hok.2),
        fun hnone => absurd hnone herr⟩

/-- Settles O23: FINISH finds no bits, writes the header 0 and closes the message behind it. -/
theorem emptyMessageIsOneZeroByte : Obligations.EmptyMessageIsOneZeroByte := by
  intro s a c b d hp
  have hpad : BitVec.ofNat 3 (padCount (openMessage s).bitCnt.toNat) = 0 :=
    (by decide : BitVec.ofNat 3 (padCount (0 : BitVec 64).toNat) = 0)
  have hread : Memory.read (finishMessage (openMessage s)).outBuf 0 = some 0x00 := by
    rw [finishMessage_read, if_pos rfl, hpad]
    rfl
  have hbyte : hostByte (finishMessage (openMessage s)) 0 = 0x00 := hostByte_of_defined rfl hread
  refine ⟨finishMessage (openMessage s), ?_, ?_, hread, rfl, hpad, rfl, rfl⟩
  · rw [execAll_cons (exec_begin_of_not_enc hp a b)]
    exact execAll_cons (exec_finish_of_enc (openMessage_phase s) c d) []
  · exact congrArg (fun byte => [byte]) hbyte

/-! ## The message of one symbol -/

/-- A tree with one code is a leaf, whose code is "0" (R92). -/
theorem code_of_genCodes_singleton {t : Tree} {sym : Sym} {code : Bits} (h : genCodes t = [(sym, code)]) :
    code = [false] := by
  cases t with
  | leaf s w =>
    cases h
    rfl
  | node l r w =>
    have hsyms : l.syms ++ r.syms = [sym] :=
      (genCodes_map_fst (.node l r w)).symm.trans (congrArg (List.map Prod.fst) h)
    have hcount := congrArg List.length hsyms
    have hl := l.syms_length_pos
    have hr := r.syms_length_pos
    rw [List.length_append, List.length_singleton] at hcount
    omega

/-- The host's table of one symbol gives it the code "0" (R86, R92). -/
theorem code_of_hostTable_singleton {b : List Sym} {sym : Sym} {code : Bits} (h : hostTable b = some [(sym, code)]) :
    code = [false] := by
  obtain ⟨t, -, ht⟩ := Option.map_eq_some_iff.mp h
  exact code_of_genCodes_singleton ht

/-- Zero bits pack to their header and zero bytes (R86). -/
theorem pack_replicate_false (n : Nat) :
    pack (List.replicate n false) = BitVec.ofNat 8 (padCount n) :: List.replicate (ceil8 n) 0x00 := by
  have hbytes : List.replicate (8 * ceil8 n) false = (List.replicate (ceil8 n) (0x00 : Byte)).flatMap byteBits := by
    rw [List.flatMap_def, List.map_replicate, show byteBits 0x00 = List.replicate 8 false from rfl,
      List.flatten_replicate_replicate, Nat.mul_comm]
  rw [pack, List.length_replicate, ← List.replicate_add, add_padCount, hbytes, packBytes_flatMap_byteBits]

theorem encodedSyms_replicate (n : Nat) (sym : Sym) (x : Len) :
    encodedSyms (List.replicate n (.enc sym x)) = List.replicate n sym := by
  induction n with
  | zero => rfl
  | succ n ih => rw [List.replicate_succ, encodedSyms, ih, List.replicate_succ]

/-- The message bitstring of copies of a symbol with the code "0" is as many zeros. -/
theorem messageBits_replicate {s : State} {sym : Sym} (h : (s.entry sym).bits = [false]) (n : Nat) :
    messageBits s (List.replicate n sym) = List.replicate n false := by
  rw [messageBits, List.flatMap_def, List.map_replicate, h, ← List.replicate_one, List.flatten_replicate_replicate,
    Nat.mul_one]

/-- Settles O24: the packing law for the message bitstring of n zeros. -/
theorem singleSymbolMessage : Obligations.SingleSymbolMessage := by
  intro s sym n hparams hp _ hv htable hroom
  have hcode := code_of_hostTable_singleton htable
  have hmb : messageBits s (encodedSyms (List.replicate n (.enc sym 0))) = List.replicate n false := by
    rw [encodedSyms_replicate, messageBits_replicate hcode]
  obtain ⟨t, ht, herr, hdone⟩ := packingLaw s (List.replicate n (.enc sym 0)) 0 0 0 0 hparams
    fun i hi => List.eq_of_mem_replicate hi ▸ rfl
  rw [hmb, List.length_replicate, pack_replicate_false] at hdone
  rw [hmb, List.length_replicate, encodedSyms_replicate] at herr
  have hvalid : ∀ c ∈ List.replicate n sym, (s.entry c).valid = true := fun c hc => List.eq_of_mem_replicate hc ▸ hv
  obtain ⟨-, hcnt, -, hpayload⟩ := hdone (herr.mpr ⟨hp, hvalid, hroom⟩)
  exact ⟨hcode, t, ht, hcnt, hpayload⟩

end Sys2Proof.Machine
end

section
/-! PROOFS. The reference functions (48_reference_functions.md): what FreqCount counts (R89), the tree of a frequency map
held in any order (R90, R95), and the walk of Decode over concatenated codes (R97). -/

namespace Sys2Proof.Reference

/-! ## The frequency map -/

/-- The symbols counted are those that occur, ascending (R89). -/
theorem freqCount_map_fst (b : List Sym) : (freqCount b).map Prod.fst = allSyms.filter (fun s => b.contains s) := by
  rw [freqCount, List.map_map]
  exact List.map_id _

/-- The counts, in the order of the symbols. -/
theorem freqCount_map_snd (b : List Sym) :
    (freqCount b).map Prod.snd = (allSyms.filter (fun s => b.contains s)).map (fun s => b.count s) := by
  rw [freqCount, List.map_map]
  rfl

theorem mem_freqCount (b : List Sym) (sym : Sym) (n : Nat) : (sym, n) ∈ freqCount b ↔ sym ∈ b ∧ n = b.count sym := by
  simp only [freqCount, List.mem_map, List.mem_filter, mem_allSyms, List.contains_iff_mem, true_and, Prod.mk.injEq]
  constructor
  · rintro ⟨c, hc, rfl, rfl⟩
    exact ⟨hc, rfl⟩
  · rintro ⟨hmem, rfl⟩
    exact ⟨sym, hmem, rfl, rfl⟩

/-- The symbols counted are the sequence's symbols without repetition. -/
theorem countedSyms_perm_dedup (b : List Sym) : (allSyms.filter (fun s => b.contains s)).Perm b.dedup :=
  (List.perm_ext_iff_of_nodup (allSyms_nodup.filter _) b.nodup_dedup).mpr fun c => by simp [mem_allSyms]

/-- Settles O43: the counts are those of the sequence's symbols without repetition, which sum to its length. -/
theorem freqCountCounts : Obligations.FreqCountCounts := by
  intro b
  refine ⟨freqCount_map_fst b ▸ allSyms_nodup.filter _, mem_freqCount b, fun ⟨sym, n⟩ he => ?_, ?_, ?_⟩
  · obtain ⟨hmem, rfl⟩ := (mem_freqCount b sym n).mp he
    exact List.count_pos_iff.mpr hmem
  · rw [freqCount_map_snd, ((countedSyms_perm_dedup b).map _).sum_eq, List.sum_map_count_dedup_eq_length]
  · rintro rfl
    simp [freqCount]

/-! ## The tree of a frequency map -/

/-- Two listings of one frequency map count the same of every symbol. -/
theorem lookup_eq_of_perm {f g : FreqMap} (h : f.Perm g) (hnodup : (f.map Prod.fst).Nodup) (c : Sym) :
    f.lookup c = g.lookup c := by
  induction h with
  | nil => rfl
  | cons e _ ih =>
    obtain ⟨-, htail⟩ := List.nodup_cons.mp hnodup
    rw [List.lookup_cons, List.lookup_cons, ih htail]
  | swap e e' l =>
    obtain ⟨a, n⟩ := e
    obtain ⟨a', n'⟩ := e'
    have hne : a' ≠ a := fun heq => (List.nodup_cons.mp hnodup).1 (by simp [heq])
    by_cases hc : c = a
    · subst hc
      simp [List.lookup_cons, beq_false_of_ne hne.symm]
    · simp [List.lookup_cons, beq_false_of_ne hc]
  | trans h₁ _ ih₁ ih₂ => exact (ih₁ hnodup).trans (ih₂ ((h₁.map Prod.fst).nodup hnodup))

/-- The leaves are pushed in ascending symbol order, whatever the order of the map (R90, C1). -/
theorem leavesOf_eq_of_perm {f g : FreqMap} (h : f.Perm g) (hnodup : (f.map Prod.fst).Nodup) :
    leavesOf f = leavesOf g := by
  simp only [leavesOf, lookup_eq_of_perm h hnodup]

/-- Settles O45: the tree is made from the leaves, which do not depend on the listing. -/
theorem canonicalRebuild : Obligations.CanonicalRebuild := by
  intro f g h hnodup
  have htree : buildTree f = buildTree g := by simp only [buildTree, leavesOf_eq_of_perm h hnodup]
  exact ⟨htree, congrArg (Option.map genCodes) htree⟩

/-! ## The walk over concatenated codes -/

section decodeWalk
variable {maxLen : Nat} {t : CodeTable}

/-- In a well-formed table a code belongs to its symbol (R93, bijective). -/
theorem symbolOf_code (ht : TableWellFormed maxLen t) {e : Sym × Bits} (he : e ∈ t) : symbolOf t e.2 = some e.1 := by
  rw [symbolOf]
  cases hfind : t.find? (fun f => f.2 == e.2) with
  | none => exact absurd (List.find?_eq_none.mp hfind e he) (by simp)
  | some f =>
    have hcode : f.2 = e.2 := by simpa using List.find?_some hfind
    rw [List.inj_on_of_nodup_map ht.bijective (List.mem_of_find?_eq_some hfind) he hcode, Option.map_some]

/-- In a well-formed table no symbol has the beginning of a code, short of all of it, as its own (R93). -/
theorem symbolOf_properPrefix (ht : TableWellFormed maxLen t) {e : Sym × Bits} (he : e ∈ t) {acc : Bits}
    (hpre : acc <+: e.2) (hne : acc ≠ e.2) : symbolOf t acc = none := by
  rw [symbolOf, Option.map_eq_none_iff, List.find?_eq_none]
  intro f hf hcode
  obtain rfl : f.2 = acc := by simpa using hcode
  exact hne (ht.prefixFree f hf e he hpre)

/-- The walk reads the rest of a code bit by bit and emits its symbol at the last one (R97). -/
theorem decodeWalk_code (ht : TableWellFormed maxLen t) {e : Sym × Bits} (he : e ∈ t) {acc rest : Bits}
    (hcode : acc ++ rest = e.2) (hrest : rest ≠ []) (bs : Bits) (out : List Sym) :
    decodeWalk t (rest ++ bs) acc out = decodeWalk t bs [] (out ++ [e.1]) := by
  induction rest generalizing acc with
  | nil => exact absurd rfl hrest
  | cons b rest ih =>
    have hcode' : (acc ++ [b]) ++ rest = e.2 := by rw [← hcode, List.append_assoc, List.singleton_append]
    rw [List.cons_append, decodeWalk]
    by_cases hlast : rest = []
    · rw [hlast, List.append_nil] at hcode'
      rw [hcode', symbolOf_code ht he, hlast, List.nil_append]
    · have hne : acc ++ [b] ≠ e.2 := fun heq => hlast (List.append_right_eq_self.mp (hcode'.trans heq.symm))
      rw [symbolOf_properPrefix ht he ⟨rest, hcode'⟩ hne]
      exact ih hcode' hlast

/-- The walk cuts concatenated codes at their boundaries (R97, R98). -/
theorem decodeWalk_codes (ht : TableWellFormed maxLen t) {msg : List (Sym × Bits)} (hmsg : ∀ e ∈ msg, e ∈ t)
    (out : List Sym) : decodeWalk t (msg.flatMap Prod.snd) [] out = (out ++ msg.map Prod.fst, .ok) := by
  induction msg generalizing out with
  | nil => simp [decodeWalk]
  | cons e msg ih =>
    obtain ⟨he, htail⟩ := List.forall_mem_cons.mp hmsg
    have hne : e.2 ≠ [] := List.ne_nil_of_length_pos (ht.lengths e he).1
    rw [List.flatMap_cons, decodeWalk_code ht he (List.nil_append _) hne, ih htail, List.map_cons, List.append_assoc,
      List.singleton_append]

end decodeWalk

/-- Every table but the one-entry table of the code "0" is decoded by the walk (R97). -/
theorem decodeBits_eq_walk {t : CodeTable} (h : ∀ s, t ≠ [(s, [false])]) (bits : Bits) :
    decodeBits bits t = decodeWalk t bits [] [] := by
  unfold decodeBits
  split
  · exact absurd rfl (h _)
  · rfl

/-- Settles O41: the one-entry table emits its symbol once a bit, and every other table is decoded by the walk. -/
theorem decodeInvertsCoding : Obligations.DecodeInvertsCoding := by
  intro maxLen t msg ht hmsg
  by_cases hone : ∃ s, t = [(s, [false])]
  · obtain ⟨s, rfl⟩ := hone
    have hcopies : msg = List.replicate msg.length (s, [false]) :=
      List.eq_replicate_of_mem fun e he => List.mem_singleton.mp (hmsg e he)
    rw [hcopies]
    simp [decodeBits, List.flatMap_def]
  · rw [decodeBits_eq_walk (not_exists.mp hone), decodeWalk_codes ht hmsg, List.nil_append]

/-- A code for every symbol of a sequence, each in a well-formed table: the concatenated codes decode to the sequence. -/
theorem decodeBits_flatMap {maxLen : Nat} {t : CodeTable} (ht : TableWellFormed maxLen t) (code : Sym → Bits)
    {syms : List Sym} (h : ∀ c ∈ syms, (c, code c) ∈ t) : decodeBits (syms.flatMap code) t = (syms, .ok) := by
  have hmsg : ∀ e ∈ syms.map (fun c => (c, code c)), e ∈ t := List.forall_mem_map.mpr h
  have hdecode := decodeInvertsCoding maxLen t _ ht hmsg
  rwa [List.flatMap_map, List.map_map, show Prod.fst ∘ (fun c => (c, code c)) = id from rfl, List.map_id] at hdecode

/-- An empty sequence has no table (R90, K1.23). -/
theorem hostTable_nil : hostTable [] = none := by
  have hfreq : freqCount [] = [] := by simp [freqCount]
  have hleaves : leavesOf [] = [] := by simp [leavesOf]
  rw [hostTable, hfreq, buildTree, hleaves]
  rfl

end Sys2Proof.Reference
end

section
/-! PROOFS. The round trip through the HBP (R98), from a loaded table and from hardware reset (R88). -/

namespace Sys2Proof.Machine

open Sys2Proof.Reference

/-! ## One message -/

/-- BEGIN, an ENC for each symbol, FINISH. -/
def packInstrs (syms : List Sym) : List Instr := [.begin 0 0] ++ syms.map (fun c => .enc c 0) ++ [.finish 0 0]

theorem encodedSyms_map_enc (syms : List Sym) (x : Len) : encodedSyms (syms.map (fun c => .enc c x)) = syms := by
  induction syms with
  | nil => rfl
  | cons c syms ih => rw [List.map_cons, encodedSyms, ih]

/-- A message of loaded symbols that fits leaves DONE and a payload that unpacks to its bitstring (R83, R96). -/
theorem execAll_packInstrs {s : State} {syms : List Sym} (hparams : s.params.Ok) (hp : s.phase ≠ .enc)
    (hvalid : ∀ c ∈ syms, (s.entry c).valid = true)
    (hroom : 1 + ((messageBits s syms).length + 7) / 8 ≤ s.params.outCap.toNat) :
    ∃ t, execAll (packInstrs syms) s = .next t ∧ t.phase = .done ∧ unpack (payload t) = (messageBits s syms, .ok) := by
  obtain ⟨t, ht, herr, hdone⟩ := packingLaw s (syms.map (fun c => .enc c 0)) 0 0 0 0 hparams
    (List.forall_mem_map.mpr fun _ _ => rfl)
  rw [encodedSyms_map_enc] at herr hdone
  obtain ⟨hphase, -, -, hpayload⟩ := hdone (herr.mpr ⟨hp, hvalid, hroom⟩)
  exact ⟨t, ht, hphase, by rw [hpayload, unpackInvertsPack]⟩

/-- Settles O42: the payload unpacks to the message bitstring, which is the concatenation of codes of the table. -/
theorem roundTrip : Obligations.RoundTrip := by
  intro s syms hparams hp htab hvalid hroom
  obtain ⟨t, ht, -, hunpack⟩ := execAll_packInstrs hparams hp hvalid hroom
  exact ⟨t, ht, hunpack, decodeBits_flatMap htab _ fun c hc => (mem_tableOf s _).mpr ⟨hvalid c hc, rfl⟩⟩

/-! ## The host pipeline -/

/-- The writes of a list of commands perform them in order (R55). -/
theorem performs_commands {is : List Instr} {s t : State} (h : execAll is s = .next t) :
    Performs (commandWrites s.params is) s t := by
  induction is generalizing s with
  | nil =>
    cases h
    exact performs_nil _
  | cons i is ih =>
    obtain ⟨u, hu, hworld⟩ := exec_world i s
    have htail := ih ((execAll_cons hu is).symm.trans h)
    rw [hworld.params] at htail
    exact (performs_command hu).append htail

/-- PACK makes the writes of its commands (R73). -/
theorem assemble_pack (p : Params) (outLen : Nat) (syms : List Sym) :
    assemble p outLen [.pack syms] = commandWrites p (packInstrs syms) := by
  rw [assemble_singleton, commandWrites, packInstrs, List.map_eq_flatMap]
  simp [Line.expand, expandEncStr, List.flatMap_map, Line.access]

/-- A program's accesses are those of its lines, in order (R72). -/
theorem assemble_cons (p : Params) (outLen : Nat) (line : Line) (prog : List Line) :
    assemble p outLen (line :: prog) = assemble p outLen [line] ++ assemble p outLen prog := by
  simp [assemble]

/-- The host's table of a sequence is well formed and has a code for every symbol of it (R93). -/
theorem hostTable_spec {b : List Sym} {tab : CodeTable} (h : hostTable b = some tab) :
    TableWellFormed 255 tab ∧ ∀ c ∈ b, ∃ code, tab.lookup c = some code := by
  have hb : b ≠ [] := by
    rintro rfl
    cases hostTable_nil.symm.trans h
  obtain ⟨tab', htable, htab, hsyms⟩ := huffmanTableIsWellFormed b hb
  obtain rfl : tab = tab' := Option.some.inj (h.symm.trans htable)
  refine ⟨htab, fun c hc => ?_⟩
  obtain ⟨⟨_, code⟩, he, rfl⟩ := List.mem_map.mp ((hsyms c).mpr hc)
  exact ⟨code, (lookup_eq_some_iff_mem htab.isMap _ code).mpr he⟩

/-- An entry loaded from a table has the code the table lists, an entry it does not list no code. -/
theorem bits_of_loaded {maxLen : Nat} {tab : CodeTable} (htab : TableWellFormed maxLen tab) (hmax : maxLen ≤ 255)
    {s : State} {c : Sym} (hentry : s.entry c = ((tab.lookup c).map codeEntry).getD Entry.invalid) :
    (s.entry c).bits = (tab.lookup c).getD [] := by
  rw [hentry]
  cases hlookup : tab.lookup c with
  | none => rfl
  | some code =>
    have hlen := (htab.lengths _ ((lookup_eq_some_iff_mem htab.isMap c code).mp hlookup)).2
    exact bits_codeEntry (hlen.trans hmax)

/-- Settles O48: LDTABLE loads the host's table, which has a code for every symbol of the sequence, and PACK makes the
message of R98. -/
theorem hostPipelineRoundTrip : Obligations.HostPipelineRoundTrip := by
  intro p epoch b tab hparams hmax htable hroom prog
  obtain ⟨htab, hlisted⟩ := hostTable_spec htable
  have hreset : (State.resetWith p epoch).phase ≠ .enc := nofun
  obtain ⟨s, hload, hframe, hentry⟩ := performs_ldTable (tab := tab) hreset (by rwa [resetWith_params, hmax])
  have hs : s.params = p := hframe.params
  have hbits : messageBits s b = b.flatMap (fun c => (tab.lookup c).getD []) :=
    List.flatMap_congr fun c _ => bits_of_loaded htab le_rfl (hentry c)
  have hvalid : ∀ c ∈ b, (s.entry c).valid = true := fun c hc => by
    obtain ⟨code, hcode⟩ := hlisted c hc
    rw [hentry, hcode]
    rfl
  obtain ⟨t, ht, hphase, hunpack⟩ := execAll_packInstrs (hs ▸ hparams) (hframe.sameStatus.phase ▸ hreset) hvalid
    (by rwa [hbits, hs])
  have hprog : prog = (expandLdTable tab).flatMap (Line.access p) ++ commandWrites s.params (packInstrs b) := by
    rw [hs, ← assemble_pack p 0]
    exact (assemble_cons p 0 _ _).trans (congrArg (· ++ _) (assemble_singleton ..))
  have hrun := (hload.append (performs_commands ht)) []
  rw [List.append_nil] at hrun
  refine ⟨t.withPending [], messageBits s b, hprog ▸ hrun, hphase, hunpack, ?_⟩
  rw [hbits]
  refine decodeBits_flatMap htab _ fun c hc => ?_
  obtain ⟨code, hcode⟩ := hlisted c hc
  rw [hcode]
  exact (lookup_eq_some_iff_mem htab.isMap c code).mp hcode

end Sys2Proof.Machine
end

section
/-! PROOFS. Errors (60_exceptions.md): the first cause and error entry (R102, R105, R106), the legality table (R109),
precise errors (R107), and what commands do in ERR (R108, R127). -/

namespace Sys2Proof.Machine

/-! ## Error entry -/

/-- A command with a cause raises it with its own word (R106). -/
theorem exec_of_cause {i : Instr} {s : State} {e : ErrCode} (h : causeOf i s = some e) :
    exec i s = .next (s.raised e (encode i)) := by rw [exec_eq, h]

/-- A command without a cause does its work. -/
theorem exec_of_no_cause {i : Instr} {s : State} (h : causeOf i s = none) : exec i s = .next (effect i s) := by
  rw [exec_eq, h]

/-- The work of a command keeps the recorded error, or clears it as BEGIN and SRESET do (R106, R108). -/
theorem effect_recorded (i : Instr) (s : State) :
    ((effect i s).errCode = s.errCode ∧ (effect i s).errCmd = s.errCmd) ∨
      ((effect i s).errCode = .none ∧ (effect i s).errCmd = 0) := by
  cases i with
  | nop | clear | load | read => exact .inl ⟨rfl, rfl⟩
  | sreset | begin => exact .inr ⟨rfl, rfl⟩
  | enc sym =>
    obtain ⟨-, -, -, hstatus, -⟩ := appendBits_frame (s.entry sym).bits s
    exact .inl ⟨hstatus.errCode, hstatus.errCmd⟩
  | finish =>
    obtain ⟨-, hcode, hcmd, -⟩ := finishMessage_frame s
    exact .inl ⟨hcode, hcmd⟩

/-- Settles O25: a cause leads to `State.raised`, and without one the command's work records nothing. -/
theorem failingCommandsOnlyRecordTheFirstCause : Obligations.FailingCommandsOnlyRecordTheFirstCause := by
  refine ⟨fun w s hillegal => performWord_of_illegal hillegal s,
    fun i s => ⟨fun e hcause => exec_of_cause hcause, fun hcause => ⟨_, exec_of_no_cause hcause, ?_⟩⟩⟩
  exact (effect_recorded i s).elim (fun ⟨hcode, hcmd⟩ => ⟨.inl hcode, .inl hcmd⟩)
    fun ⟨hcode, hcmd⟩ => ⟨.inr hcode, .inr hcmd⟩

/-! ## The legality table -/

/-- A command that is not legal in the state has the cause STATE, before any other (R105, R109). -/
theorem causeOf_of_not_legal {i : Instr} {s : State} (h : legalIn i s.phase = false) : causeOf i s = some .state :=
  if_pos h

/-- A command that is legal in the state never has the cause STATE (R109). -/
theorem causeOf_ne_state {i : Instr} {s : State} (h : legalIn i s.phase = true) : causeOf i s ≠ some .state := by
  unfold causeOf
  rw [if_neg (by simp [h])]
  cases i with
  | load | enc => dsimp only; split_ifs <;> simp
  | nop | sreset | clear | read | begin | finish => simp

/-- The work of a command enters the state after the arrow (R109). -/
theorem effect_phase (i : Instr) (s : State) : (effect i s).phase = successPhase i s.phase := by
  cases i with
  | enc sym =>
    obtain ⟨-, -, -, hstatus, -⟩ := appendBits_frame (s.entry sym).bits s
    exact hstatus.phase
  | nop | sreset | clear | load | read | begin | finish => rfl

/-- A legal command does not record STATE as the first error (R106, R109). -/
theorem exec_errCode_ne_state {i : Instr} {s t : State} (h : legalIn i s.phase = true) (hnone : s.errCode = .none)
    (ht : exec i s = .next t) : t.errCode ≠ .state := by
  cases hcause : causeOf i s with
  | none =>
    cases ht.symm.trans (exec_of_no_cause hcause)
    rw [effect_errCode hnone]
    decide
  | some e =>
    cases ht.symm.trans (exec_of_cause hcause)
    rw [raised_errCode, if_pos hnone]
    exact fun he => causeOf_ne_state h (he ▸ hcause)

/-- Settles O26: STATE is the cause of exactly the commands that are not legal, and an illegal word raises ILLEGAL. -/
theorem legalityTable : Obligations.LegalityTable := by
  refine ⟨fun i s => ?_, fun w s hillegal => ⟨performWord_of_illegal hillegal s, fun hp he => ?_⟩⟩
  · obtain ⟨t, ht, -⟩ := exec_world i s
    have hstate (h : legalIn i s.phase = false) : t = s.raised .state (encode i) :=
      Host.Outcome.next.inj (ht.symm.trans (exec_of_cause (causeOf_of_not_legal h)))
    refine ⟨t, ht, hstate, fun h hp he => ?_, fun _ hcause => ?_, fun h hnone => exec_errCode_ne_state h hnone ht⟩
    · rw [hstate h, raised_of_recorded _ _ s hp he]
    · cases ht.symm.trans (exec_of_no_cause hcause)
      exact effect_phase i s
  · rw [performWord_of_illegal hillegal, raised_of_recorded _ _ s hp he]

/-! ## Precise errors -/

/-- An illegal word and a command with a cause end in error entry (R69, R106). -/
theorem performWord_of_failing {w : Word} {s : State}
    (h : (∀ i : Instr, decode w ≠ .ok i) ∨ ∃ i, decode w = .ok i ∧ causeOf i s ≠ none) :
    ∃ e v, performWord w s = .next (s.raised e v) := by
  obtain hillegal | ⟨i, hdecode, hcause⟩ := h
  · exact ⟨_, _, performWord_of_illegal hillegal s⟩
  · obtain ⟨e, he⟩ := Option.ne_none_iff_exists'.mp hcause
    refine ⟨e, encode i, ?_⟩
    rw [performWord, hdecode]
    exact exec_of_cause he

/-- An error in DONE leaves the finished payload readable by the host (R39, R107). -/
theorem payload_raised_of_done {s : State} (hp : s.phase = .done) (e : ErrCode) (w : Word) :
    payload (s.raised e w) = payload s := by
  have hdefined (i : Nat) : definedByte (s.raised e w) i = definedByte s i := by
    rw [definedByte, definedByte, hp]
    rfl
  have hbyte : hostByte (s.raised e w) = hostByte s := funext fun i => by
    rw [hostByte, hostByte, hdefined, raised_outBuf, raised_epoch]
  rw [payload, payload, hbyte, raised_outLen]

/-- Settles O30: error entry writes STATE, ERRCODE and ERRCMD alone. -/
theorem errorsArePrecise : Obligations.ErrorsArePrecise := by
  intro w s hfails
  obtain ⟨e, v, ht⟩ := performWord_of_failing hfails
  exact ⟨_, ht, raised_phase .., rfl, fun hp => ⟨raised_outLen .., raised_pad .., payload_raised_of_done hp e v⟩⟩

/-! ## Commands performed in ERR -/

/-- A command answers one state: what is known of it is known of every state the command answers. -/
theorem of_exec_next {i : Instr} {s t : State} {P : State → Prop} (ht : exec i s = .next t)
    (h : ∃ u, exec i s = .next u ∧ P u) : P t := by
  obtain ⟨u, hu, hP⟩ := h
  cases ht.symm.trans hu
  exact hP

/-- A command that raises in ERR with an error already recorded changes nothing (R106). -/
theorem eq_of_raised_of_recorded {i : Instr} {s t : State} {e : ErrCode} {w : Word} (hp : s.phase = .err)
    (he : s.errCode ≠ .none) (ht : exec i s = .next t) (hraised : exec i s = .next (s.raised e w)) : t = s := by
  cases ht.symm.trans hraised
  exact raised_of_recorded e w s hp he

/-- Of the commands performed in ERR with an error recorded, BEGIN and SRESET leave it (R108). -/
theorem exec_phase_ne_err_iff {i : Instr} {s t : State} (hp : s.phase = .err) (he : s.errCode ≠ .none)
    (ht : exec i s = .next t) : t.phase ≠ .err ↔ (∃ a b, i = .begin a b) ∨ ∃ a b, i = .sreset a b := by
  constructor
  · contrapose!
    rintro ⟨hbegin, hsreset⟩
    exact (of_exec_next ht (exec_of_recorded hp he fun a b => ⟨hbegin a b, hsreset a b⟩)).phase.trans hp
  · rintro (⟨a, b, rfl⟩ | ⟨a, b, rfl⟩)
    · cases ht.symm.trans (exec_begin_of_not_enc (by simp [hp]) a b)
      simp [openMessage_phase]
    · cases ht
      simp [softReset_phase]

/-- Settles O27: each command's clause is its own rule in a state that is not ENC, and a failing one is dropped. -/
theorem onlyBeginAndSresetLeaveErr : Obligations.OnlyBeginAndSresetLeaveErr := by
  intro i s hp he
  have hne : s.phase ≠ .enc := by simp [hp]
  obtain ⟨t, ht, -⟩ := exec_world i s
  have hleave := exec_phase_ne_err_iff hp he ht
  refine ⟨t, ht, hleave, ?begin, ?sreset, fun herr => ?stays, ?nop, ?clear, ?load, ?badLen, ?read, ?encOrFinish⟩
  case begin =>
    rintro ⟨a, b, rfl⟩
    obtain ⟨-, hbegin, -⟩ := beginOpensMessage a b s
    exact of_exec_next ht (hbegin hne)
  case sreset =>
    rintro ⟨a, b, rfl⟩
    obtain ⟨-, hsreset⟩ := sresetIsResetKeepingOutBuf a b s
    exact Host.Outcome.next.inj (ht.symm.trans hsreset)
  case stays =>
    obtain ⟨hbegin, hsreset⟩ := not_or.mp fun h => hleave.mpr h herr
    have hsame := of_exec_next ht (exec_of_recorded hp he fun a b =>
      ⟨fun h => hbegin ⟨a, b, h⟩, fun h => hsreset ⟨a, b, h⟩⟩)
    exact ⟨hsame.errCode, hsame.errCmd⟩
  case nop =>
    rintro ⟨a, b, rfl⟩
    exact (Host.Outcome.next.inj ht).symm
  case clear =>
    rintro ⟨a, b, rfl⟩
    obtain ⟨-, hclear, -⟩ := clearInvalidatesEveryEntry a b s
    exact of_exec_next ht (hclear hne)
  case load =>
    rintro sym len rfl hpos hmax
    obtain ⟨-, hload, -⟩ := loadWritesOneEntry sym len s
    exact of_exec_next ht (hload hne hpos hmax)
  case badLen =>
    rintro sym len rfl hlen
    exact eq_of_raised_of_recorded hp he ht (exec_load_of_badLength hne hlen sym)
  case read =>
    rintro sym x rfl
    obtain ⟨-, hread⟩ := readCopiesEntry sym x s
    obtain ⟨hbits, hlen, hvalid, -, hframe⟩ := of_exec_next ht hread
    exact ⟨hbits, hlen, hvalid, hframe⟩
  case encOrFinish =>
    rintro (⟨sym, x, rfl⟩ | ⟨a, b, rfl⟩)
    · exact eq_of_raised_of_recorded hp he ht (exec_enc_of_not_enc hne sym x)
    · exact eq_of_raised_of_recorded hp he ht (exec_finish_of_not_enc hne a b)

/-! ## Command sequences performed in ERR -/

theorem SameStatus.trans {s t u : State} (hst : SameStatus s t) (htu : SameStatus t u) : SameStatus s u :=
  ⟨htu.phase.trans hst.phase, htu.errCode.trans hst.errCode, htu.errCmd.trans hst.errCmd⟩

theorem SameMessage.trans {s t u : State} (hst : SameMessage s t) (htu : SameMessage t u) : SameMessage s u :=
  ⟨htu.bitCnt.trans hst.bitCnt, htu.outPtr.trans hst.outPtr, htu.outLen.trans hst.outLen, htu.pad.trans hst.pad,
    htu.acc.trans hst.acc, htu.accN.trans hst.accN, htu.outBuf.trans hst.outBuf⟩

theorem SameMessage.rfl (s : State) : SameMessage s s := ⟨.refl _, .refl _, .refl _, .refl _, .refl _, .refl _, .refl _⟩

/-- What every command of a sequence keeps, the sequence keeps. -/
theorem execAll_keeps {P : State → Prop} {is : List Instr}
    (hkeep : ∀ i ∈ is, ∀ s, P s → ∃ t, exec i s = .next t ∧ P t) {s : State} (hs : P s) :
    ∃ t, execAll is s = .next t ∧ P t := by
  induction is generalizing s with
  | nil => exact ⟨s, rfl, hs⟩
  | cons i is ih =>
    obtain ⟨hhead, htail⟩ := List.forall_mem_cons.mp hkeep
    obtain ⟨t, ht, hPt⟩ := hhead s hs
    obtain ⟨u, hu, hPu⟩ := ih htail hPt
    exact ⟨u, (execAll_cons ht is).trans hu, hPu⟩

/-- In ERR a command other than BEGIN and SRESET keeps the message registers and OUT_BUF (R108). -/
theorem exec_sameMessage_of_err {i : Instr} {s t : State} (hp : s.phase = .err)
    (hi : ∀ a b, i ≠ .begin a b ∧ i ≠ .sreset a b) (ht : exec i s = .next t) : SameMessage s t := by
  obtain ⟨e, -, rfl⟩ | hs := exec_cases ht
  · exact ⟨rfl, rfl, rfl, rfl, rfl, rfl, rfl⟩
  · cases i with
    | nop | read =>
      cases hs
      exact ⟨rfl, rfl, rfl, rfl, rfl, rfl, rfl⟩
    | sreset a b => exact absurd rfl (hi a b).2
    | begin a b => exact absurd rfl (hi a b).1
    | clear =>
      obtain ⟨-, rfl⟩ := hs
      exact (table_update_frame s _).1
    | load =>
      obtain ⟨-, -, rfl⟩ := hs
      exact (table_update_frame s _).1
    | enc | finish => exact absurd (hp.symm.trans hs.1) (by decide)

/-- Settles O28: each command keeps what is recorded and the message, and so does the sequence. -/
theorem errorStaysUntilBeginOrSreset : Obligations.ErrorStaysUntilBeginOrSreset := by
  intro is s hp he his
  have hkeep : ∀ i ∈ is, ∀ u, SameStatus s u ∧ SameMessage s u →
      ∃ t, exec i u = .next t ∧ SameStatus s t ∧ SameMessage s t := by
    rintro i hi u ⟨hstatus, hmessage⟩
    have hpu : u.phase = .err := hstatus.phase.trans hp
    obtain ⟨t, ht, hstatus'⟩ := exec_of_recorded hpu (hstatus.errCode ▸ he) (his i hi)
    exact ⟨t, ht, hstatus.trans hstatus', hmessage.trans (exec_sameMessage_of_err hpu (his i hi) ht)⟩
  obtain ⟨t, ht, hstatus, hmessage⟩ := execAll_keeps hkeep ⟨⟨rfl, rfl, rfl⟩, SameMessage.rfl s⟩
  exact ⟨t, ht, hstatus.phase.trans hp, hstatus.errCode, hstatus.errCmd, hmessage⟩

end Sys2Proof.Machine
end

section
/-! PROOFS. Hardware reset and what a host may rely on between commands (70_reset_and_hazards.md): the state a reset leaves
(R119), and the one way into DONE (R127). -/

namespace Sys2Proof.Machine

/-! ## Hardware reset -/

/-- The step that takes a hardware reset. -/
theorem step_hwReset {s : State} {rest : List HostEvent} (h : s.pending = .hwReset :: rest) :
    step s = .next (hardReset { s with pending := rest }) := by
  simp only [step, nextEvent, h, hostAct]

/-- In IDLE the host may rely on no byte of OUT_BUF (R39, log 5). -/
theorem definedByte_of_idle {s : State} (h : s.phase = .idle) (i : Nat) : definedByte s i = false := by
  rw [definedByte, h]

/-- Settles O11: the step leaves `hardReset`, the reset state of the same parameters with the host's lists put back. -/
theorem hardwareResetGivesResetState : Obligations.HardwareResetGivesResetState := by
  intro s rest hpending
  have hdata := resetWith_codeData s.params (s.epoch + 1)
  have hentry := resetWith_entry s.params (s.epoch + 1)
  exact ⟨_, step_hwReset hpending, rfl, rfl, rfl, rfl, rfl, rfl, rfl, rfl, rfl, rfl, rfl, hdata, hentry,
    definedByte_of_idle rfl, rfl, rfl, rfl⟩

/-! ## The way into DONE -/

/-- A command without a cause is legal in the state (R105, R109). -/
theorem legalIn_of_no_cause {i : Instr} {s : State} (h : causeOf i s = none) : legalIn i s.phase = true := by
  by_contra hlegal
  rw [causeOf_of_not_legal (Bool.eq_false_of_not_eq_true hlegal)] at h
  cases h

/-- Of the successful commands only FINISH enters DONE from another state (R109, after the arrow). -/
theorem finish_of_successPhase_eq_done {i : Instr} {p : Phase} (h : successPhase i p = .done) (hp : p ≠ .done) :
    ∃ a b, i = .finish a b := by
  cases i with
  | finish a b => exact ⟨a, b, rfl⟩
  | nop | read | clear | load | enc => exact absurd h hp
  | sreset | begin => cases h

/-- A command that enters DONE is a FINISH performed in ENC: a raised error enters ERR, and FINISH is legal in ENC
alone (R106, R109). -/
theorem enc_and_finish_of_exec_done {i : Instr} {s t : State} (ht : exec i s = .next t) (hdone : t.phase = .done)
    (hp : s.phase ≠ .done) : s.phase = .enc ∧ ∃ a b, i = .finish a b := by
  cases hcause : causeOf i s with
  | some e =>
    cases ht.symm.trans (exec_of_cause hcause)
    cases hdone
  | none =>
    cases ht.symm.trans (exec_of_no_cause hcause)
    rw [effect_phase] at hdone
    obtain ⟨a, b, rfl⟩ := finish_of_successPhase_eq_done hdone hp
    exact ⟨beq_iff_eq.mp (legalIn_of_no_cause hcause), a, b, rfl⟩

/-- Settles O29: a reset enters IDLE and an illegal word ERR, a legal word is performed as its command, and no other
event touches STATE. -/
theorem doneIsEnteredOnlyByFinish : Obligations.DoneIsEnteredOnlyByFinish := by
  intro s t hstep hdone hp
  obtain ⟨-, rfl⟩ | ⟨rest, ⟨_, _, _, -, rfl⟩ | ⟨w, hpending, hw⟩ | ⟨_, _, _, _, -, rfl⟩ | ⟨_, _, _, -, rfl⟩ | ⟨-, rfl⟩⟩ :=
    step_cases hstep
  case inr.inr.inl =>
    obtain rfl | ⟨i, hdecode, hi⟩ := performWord_cases hw
    · cases hdone
    · obtain ⟨henc, a, b, rfl⟩ := enc_and_finish_of_exec_done hi hdone hp
      exact ⟨henc, w, rest, a, b, hpending, hdecode⟩
  case inr.inr.inr.inr.inr => cases hdone
  all_goals exact absurd hdone hp

end Sys2Proof.Machine
end
